-- ==== Sys2Proof/Word.lean ====
section
/-! DEFINITION. The word types of the machine: registers and immediates, bytes of the stored image, instruction words. -/

namespace Sys2Proof

/-- A register value or an immediate: `XLEN = 32` bits, two's complement (R7, R10, R23). -/
abbrev Word := BitVec 32

/-- A slot index: the width `PCW = 32` of the program counter (R7, R26). -/
abbrev SlotIndex := BitVec 32

/-- An instruction word, the content of one slot: `IW = 64` bits (R7, R51, R81). -/
abbrev InstrWord := BitVec 64

/-- One byte of the store's image (R60: 8 bytes per slot). -/
abbrev Byte := BitVec 8

end Sys2Proof
end

