-- ==== Sys2Proof/Machine/Flags.lean ====
section
/-! DEFINITION. The add datapath. The machine has no flags (R30): an add records its result and nothing else (R153). -/

namespace Sys2Proof.Machine

/-- `a +32 b = trunc_32(unsigned(a) + unsigned(b))`: the machine's one arithmetic operation (R10, R152).
A carry or an overflow is recorded nowhere. -/
def add32 (a b : Word) : Word := BitVec.ofNat 32 (a.toNat + b.toNat)

end Sys2Proof.Machine
end

