-- ==== Sys2Proof/Syntax.lean ====
section
/-! DEFINITION. The instructions as a closed sum type, one constructor per row of the opcode table (R80, R84, R92). -/

namespace Sys2Proof

/-- A decoded instruction. Register fields are integers that may be out of range: the range check is
part of execution, not of the type (R89, R92). `trap` and `halt` carry no operand, because the fields
their words hold are ignored (R88). -/
inductive Instr where
  /-- `MOV_IMM(Rt, imm)`, opcode 0 (R140). -/
  | movImm (rt : Int) (imm : Word)
  /-- `ADD_REG(Rt, Rs)`, opcode 1 (R150). -/
  | addReg (rt : Int) (rs : Int)
  /-- `ADD_IMM(Rt, imm)`, opcode 2 (R151). -/
  | addImm (rt : Int) (imm : Word)
  /-- `TRAP`, opcode 3 (R170). -/
  | trap
  /-- `HALT`, opcode 4 (R171). -/
  | halt
  deriving DecidableEq, Repr

end Sys2Proof
end

