-- ==== Sys2Proof/WellFormed.lean ====
section
/-! DEFINITION. Which instruction records have a word: the ranges of the fields of format W (R83, R91). -/

namespace Sys2Proof

/-- The target field holds an unsigned 16-bit integer (R83). -/
def targetFits (rt : Int) : Bool := decide (0 ≤ rt) && decide (rt < 65536)

/-- The operand field, read as a register index, holds a signed 32-bit integer (R85). -/
def operandFits (rs : Int) : Bool := decide (-2147483648 ≤ rs) && decide (rs < 2147483648)

/-- The records that can be encoded (R91: `0 <= rt <= 65535` and `rs`, `imm` of 32 bits). A register
index outside 0..7 is no reason to reject a record (R89). -/
def Instr.wellFormed : Instr → Bool
  | .movImm rt _ => targetFits rt
  | .addReg rt rs => targetFits rt && operandFits rs
  | .addImm rt _ => targetFits rt
  | .trap => true
  | .halt => true

end Sys2Proof
end

