-- ==== Sys2Proof/Decode.lean ====
section
/-! DEFINITION. The decoder and the encoder of format W, over words and over the bytes of a stored word (R81 to R91). -/

namespace Sys2Proof

/-- `op = w[63:48]` (R83). -/
def opField (w : InstrWord) : BitVec 16 := w.extractLsb' 48 16

/-- `rt = w[47:32]` (R83). -/
def rtField (w : InstrWord) : BitVec 16 := w.extractLsb' 32 16

/-- `opnd = w[31:0]` (R83). -/
def opndField (w : InstrWord) : BitVec 32 := w.extractLsb' 0 32

/-- `w = op ++ rt ++ opnd` (R83). -/
def joinFields (op rt : BitVec 16) (opnd : BitVec 32) : InstrWord := op ++ rt ++ opnd

/-- The target field read as a register index: unsigned (R83, R85). -/
def targetIndex (rt : BitVec 16) : Int := rt.toNat

/-- The operand field read as a register index: `rs = signed(opnd)` (R85). -/
def operandIndex (opnd : BitVec 32) : Int := opnd.toInt

/-- The operand field read as an immediate: the 32 bits as they stand (R85). -/
def immediate (opnd : BitVec 32) : Word := opnd

/-- What a word spells: one of the five instructions, or nothing (R86, R92). -/
inductive Decoded where
  /-- The word spells this instruction. -/
  | instr (i : Instr)
  /-- The word's opcode field is outside 0..4 (R87). -/
  | illegal
  deriving DecidableEq, Repr

/-- `Decode(w)`, a total function on words that looks at `op` alone to choose the operation (R86). -/
def decodeWord (w : InstrWord) : Decoded :=
  match (opField w).toNat with
  | 0 => .instr (.movImm (targetIndex (rtField w)) (immediate (opndField w)))
  | 1 => .instr (.addReg (targetIndex (rtField w)) (operandIndex (opndField w)))
  | 2 => .instr (.addImm (targetIndex (rtField w)) (immediate (opndField w)))
  | 3 => .instr .trap
  | 4 => .instr .halt
  | _ => .illegal

/-- A word from its eight bytes, byte 0 first: byte `k` is `w[8k+7:8k]` (R60). -/
def joinBytes (b0 b1 b2 b3 b4 b5 b6 b7 : Byte) : InstrWord :=
  b7 ++ b6 ++ b5 ++ b4 ++ b3 ++ b2 ++ b1 ++ b0

/-- Byte `k` of a word, `w[8k+7:8k]` (R60). -/
def wordByte (w : InstrWord) (k : Nat) : Byte := w.extractLsb' (8 * k) 8

/-- The eight bytes of a word in image order, little-endian (R60, log 3). -/
def wordBytes (w : InstrWord) : List Byte :=
  [wordByte w 0, wordByte w 1, wordByte w 2, wordByte w 3,
   wordByte w 4, wordByte w 5, wordByte w 6, wordByte w 7]

/-- Why a list of bytes gives no instruction. -/
inductive DecodeError where
  /-- The word's opcode field is outside 0..4 (R87); the machine answers this with the fault
  UnknownOpcode. -/
  | illegalOpcode
  /-- Fewer than the eight bytes of a slot are left; the machine never meets it, since it fetches
  whole slots (R54, R63). -/
  | truncated
  deriving DecidableEq, Repr

/-- The decoder over bytes: reads one slot's eight bytes and answers the instruction and the bytes
after it; total, and it rejects by name. -/
def decode : List Byte → Except DecodeError (Instr × List Byte)
  | b0 :: b1 :: b2 :: b3 :: b4 :: b5 :: b6 :: b7 :: rest =>
    match decodeWord (joinBytes b0 b1 b2 b3 b4 b5 b6 b7) with
    | .instr i => .ok (i, rest)
    | .illegal => .error .illegalOpcode
  | _ => .error .truncated

/-- `Encode(i)`, the canonical word of an instruction (R91). On a record that is not well-formed, which
has no word, each field is cut to its width. -/
def encode : Instr → InstrWord
  | .movImm rt imm => joinFields 0 (BitVec.ofInt 16 rt) imm
  | .addReg rt rs => joinFields 1 (BitVec.ofInt 16 rt) (BitVec.ofInt 32 rs)
  | .addImm rt imm => joinFields 2 (BitVec.ofInt 16 rt) imm
  | .trap => joinFields 3 0 0
  | .halt => joinFields 4 0 0

/-- The canonical word's bytes as the store holds them (R60). -/
def encodeBytes (i : Instr) : List Byte := wordBytes (encode i)

/-- The word the opcode table numbers as `w` in `nbits` bits: bits at and above `nbits` are 0. -/
def tableWord (nbits w : Nat) : InstrWord := BitVec.ofNat 64 (w % 2 ^ nbits)

/-- The instruction the decoder reads from a word of the opcode table, laid out as bytes. -/
def decodeTableWord (nbits w : Nat) : Option Instr :=
  match decode (wordBytes (tableWord nbits w)) with
  | .ok (i, _) => some i
  | .error _ => none

end Sys2Proof
end

