-- ==== Sys2Proof/Config.lean ====
section
/-! DEFINITION. The parameters of the hardware (R7) that are not widths. -/

namespace Sys2Proof

/-- `CAP` of the reference, the capacity of the store the machine has after reset (R7, R52).
A store carries its own capacity, so claims hold for every `CAP` below `2^32` (log 4). -/
def Config.referenceCapacity : SlotIndex := 1024

/-- `IE_RESET`, the value of `interrupts_enabled` after reset (R7, R34).
DESIGN CHOICE (log 1): the spec leaves it an open parameter and asks that claims hold for both values,
so it is a constant with no body. Safe as to its value; unsafe in being one value for every reset. -/
opaque Config.ieReset : Bool

/-- The number of a general register, `0 <= i < NUM_REGS`, with `NUM_REGS = 8` (R7, R11, R22). -/
abbrev RegIndex := Fin 8

end Sys2Proof
end

