-- ==== Sys2Proof/Machine/State.lean ====
section
/-! DEFINITION. The machine's state as plain data, its faults and refusals, and the state after reset (R20 to R39, R50 to R55). -/

namespace Sys2Proof.Machine

/-- The privilege mode (R31): USER is 0 and KERNEL is 1 where a number is needed. -/
inductive Mode where
  | user
  | kernel
  deriving DecidableEq, Repr

/-- The two events a step can emit; neither has a payload (R118). -/
inductive Event where
  /-- Emitted by an executed `TRAP` (R170). -/
  | trapRaised
  /-- Emitted by an executed `HALT` (R171). -/
  | haltReached
  deriving DecidableEq, Repr

/-- The two outcomes of a step that does not fail (R115). -/
inductive Signal where
  /-- `Continue`: the instruction completed and `pc` was advanced. -/
  | continued
  /-- `Stop`: the instruction was `HALT`; `pc` was not advanced. -/
  | stopped
  deriving DecidableEq, Repr

/-- What a step that does not fail reports beside the next CPU State: its outcome and its list of zero
or one events (R110). -/
structure StepReport where
  signal : Signal
  events : List Event
  deriving DecidableEq, Repr

/-- The register file: eight 32-bit registers, none hardwired (R22, R23). -/
abbrev RegFile := Vector Word 8

/-- The CPU State: exactly the four fields of R20. -/
structure CpuState where
  /-- `x[0]` to `x[7]` (R22). -/
  regs : RegFile
  /-- The slot index of the next instruction to fetch (R26). -/
  pc : SlotIndex
  /-- The privilege mode (R31). -/
  mode : Mode
  /-- `interrupts_enabled`: reserved; no instruction reads or writes it (R33). -/
  interruptsEnabled : Bool
  deriving DecidableEq, Repr

/-- The bytes of the store's image, listed by address in canonical form (`Memory.wf`): slot `i` is at
the addresses `8*i` to `8*i + 7` (R60, log 3). An unlisted byte reads as the empty slot does (R55). -/
abbrev Memory := List Host.Cell

/-- An Instruction Store: its capacity `CAP`, fixed for its lifetime, and its contents (R50 to R52). -/
structure InstructionStore where
  /-- `CAP`, at the width of the port `imem_cap` (R127), so that `CAP < 2^32` (R7). -/
  capacity : SlotIndex
  /-- The contents. -/
  memory : Memory
  deriving DecidableEq, Repr

/-- The machine: the CPU State, the store it fetches from, and what the most recent step reported.
`report` is the model's own field (log 2): the outcome and events are outputs of a step (R21, R110) and
no step reads it. -/
structure State where
  cpu : CpuState
  store : InstructionStore
  report : StepReport
  deriving DecidableEq, Repr

/-- The failure conditions of R190, each ending the step with no effect on the CPU State (R116). All
three are safe: the spec itself ends the step there. -/
inductive Fault where
  /-- `OutOfBoundsFetch`: raised by the fetch when `pc >= CAP` (R192). Safe. -/
  | outOfBoundsFetch
  /-- `UnknownOpcode`: raised by the dispatch when the opcode field is outside 0..4 (R193). Safe. -/
  | unknownOpcode
  /-- `InvalidRegisterIndex`: raised by `MOV_IMM`, `ADD_REG` and `ADD_IMM` when a register index they
  use is outside 0..7 (R194). Safe. -/
  | invalidRegisterIndex
  deriving DecidableEq, Repr

/-- Refusals of the model. Every instruction has its meaning, so no step answers one. -/
inductive Refusal where
  /-- The instruction has no meaning in the model yet; raised by no arm. Safe: the model stops. -/
  | notModelled (mnemonic : String)
  deriving DecidableEq, Repr

/-- What a step of the model answers: the next state, a fault or a refusal. -/
abbrev Answer := Host.Outcome State Fault Refusal

/-- The CPU State after reset (R39, R230). -/
def CpuState.reset : CpuState where
  regs := Vector.replicate 8 0
  pc := 0
  mode := .user
  interruptsEnabled := Config.ieReset

/-- The machine right after reset with a store newly constructed empty (R39, R55). `report` starts as
Continue with no event: DESIGN CHOICE (log 2), no step has reported yet. -/
def State.reset : State where
  cpu := CpuState.reset
  store := ⟨Config.referenceCapacity, []⟩
  report := ⟨.continued, []⟩

end Sys2Proof.Machine
end

