-- ==== Sys2Proof/Machine/Ops.lean ====
section
/-! DEFINITION. The named operations over the store, the registers and the control state, which every meaning is written with. -/

namespace Sys2Proof.Machine

/-! ### The bytes of the store -/

/-- The word of a slot that `populate` has never written: the canonical HALT word (R55). -/
def emptySlotWord : InstrWord := encode .halt

/-- What an unlisted address reads as: the byte of the empty slot that stands there (R55, R60). -/
def unlistedByte (a : Nat) : Byte := wordByte emptySlotWord (a % 8)

/-- The byte at an address of the image. -/
def Memory.readByte : Memory → Nat → Byte
  | [], a => unlistedByte a
  | (b, v) :: m, a => if a = b then v else Memory.readByte m a

/-- The image with one byte written, in canonical form: writing what an unlisted address reads as
removes the entry. -/
def Memory.writeByte : Memory → Nat → Byte → Memory
  | [], a, v => if v = unlistedByte a then [] else [(a, v)]
  | (b, u) :: m, a, v =>
    if a < b then if v = unlistedByte a then (b, u) :: m else (a, v) :: (b, u) :: m
    else if a = b then if v = unlistedByte a then m else (a, v) :: m
    else (b, u) :: Memory.writeByte m a v

/-- The canonical form: addresses strictly rising, and no entry equal to what an unlisted address reads
as. -/
abbrev Memory.wf (m : Memory) : Prop :=
  m.Pairwise (fun c d => c.1 < d.1) ∧ ∀ c ∈ m, c.2 ≠ unlistedByte c.1

/-! ### The Instruction Store -/

/-- A store's contents are in canonical form and lie in its slots `0` to `CAP - 1` (R52, R62). -/
abbrev InstructionStore.wf (st : InstructionStore) : Prop :=
  Memory.wf st.memory ∧ ∀ c ∈ st.memory, c.1 < 8 * st.capacity.toNat

/-- Construct-empty: a store of this capacity, every slot holding the HALT word (R55). -/
def InstructionStore.constructEmpty (capacity : SlotIndex) : InstructionStore := ⟨capacity, []⟩

/-- The eight bytes of slot `i`, in image order (R60). -/
def InstructionStore.slotBytes (st : InstructionStore) (i : SlotIndex) : List Byte :=
  [Memory.readByte st.memory (8 * i.toNat), Memory.readByte st.memory (8 * i.toNat + 1),
   Memory.readByte st.memory (8 * i.toNat + 2), Memory.readByte st.memory (8 * i.toNat + 3),
   Memory.readByte st.memory (8 * i.toNat + 4), Memory.readByte st.memory (8 * i.toNat + 5),
   Memory.readByte st.memory (8 * i.toNat + 6), Memory.readByte st.memory (8 * i.toNat + 7)]

/-- The word of slot `i`: `IMem[i]` (R51). -/
def InstructionStore.slotWord (st : InstructionStore) (i : SlotIndex) : InstrWord :=
  joinBytes
    (Memory.readByte st.memory (8 * i.toNat)) (Memory.readByte st.memory (8 * i.toNat + 1))
    (Memory.readByte st.memory (8 * i.toNat + 2)) (Memory.readByte st.memory (8 * i.toNat + 3))
    (Memory.readByte st.memory (8 * i.toNat + 4)) (Memory.readByte st.memory (8 * i.toNat + 5))
    (Memory.readByte st.memory (8 * i.toNat + 6)) (Memory.readByte st.memory (8 * i.toNat + 7))

/-- `IFetch(i)`: the word of slot `i`, or nothing when `i >= CAP`, where the step raises
OutOfBoundsFetch (R54). -/
def InstructionStore.iFetch (st : InstructionStore) (i : SlotIndex) : Option InstrWord :=
  if i < st.capacity then some (st.slotWord i) else none

/-- Bytes written at `a`, `a + 1`, … in turn. -/
def Memory.writeBytes (m : Memory) (a : Nat) : List Byte → Memory
  | [] => m
  | v :: vs => Memory.writeBytes (Memory.writeByte m a v) (a + 1) vs

/-- The store with the word of slot `i` set. -/
def InstructionStore.writeSlot (st : InstructionStore) (i : SlotIndex) (w : InstrWord) :
    InstructionStore :=
  { st with memory := Memory.writeBytes st.memory (8 * i.toNat) (wordBytes w) }

/-- What `populate` answers to the loader: the store, and whether the load was accepted (`ld_ok`, R57,
R127). -/
structure LoadResult where
  store : InstructionStore
  ok : Bool
  deriving DecidableEq, Repr

/-- `populate(store, index, word)`: checks the index and nothing else; a bad index is refused without
effect (R56, R57). -/
def InstructionStore.populate (st : InstructionStore) (index : SlotIndex) (w : InstrWord) :
    LoadResult :=
  if index < st.capacity then ⟨st.writeSlot index w, true⟩ else ⟨st, false⟩

/-! ### The CPU State -/

/-- `x[r]` (R11). -/
def State.getReg (s : State) (r : RegIndex) : Word := s.cpu.regs[r]

/-- `x[r] <- v` (R11). -/
def State.setReg (s : State) (r : RegIndex) (v : Word) : State :=
  { s with cpu := { s.cpu with regs := s.cpu.regs.set r v } }

/-- `mode <- m` (R11). -/
def State.setMode (s : State) (m : Mode) : State :=
  { s with cpu := { s.cpu with mode := m } }

/-- Step 3 of the algorithm: `pc <- pc + 1; return Continue`, with the events the arm emitted (R114). -/
def State.retire (s : State) (events : List Event) : State :=
  { s with cpu := { s.cpu with pc := s.cpu.pc + 1 }, report := ⟨.continued, events⟩ }

/-- `emit HaltReached; return Stop`: step 3 is skipped and the CPU State stays (R171). -/
def State.stop (s : State) : State := { s with report := ⟨.stopped, [.haltReached]⟩ }

/-- Taking the one trap (R199): `emit TrapRaised; mode <- KERNEL`, then the normal advance. It saves
nothing and goes to no handler. There is no return from it (R201). -/
def State.takeTrap (s : State) : State := (s.setMode .kernel).retire [.trapRaised]

/-- The reset request: the four fields of the CPU State get their reset values and the store stays
(R230, R231). -/
def State.resetCpu (s : State) : State := { s with cpu := CpuState.reset }

end Sys2Proof.Machine
end

