-- ==== Sys2Proof/Machine/Operands.lean ====
section
/-! DEFINITION. The operand forms at execution: a field used as a register index is checked before any write (R113, R194). -/

namespace Sys2Proof.Machine

/-- `ValidReg(i)`: `0 <= i < NUM_REGS`, with `NUM_REGS = 8` (R7, R12). -/
abbrev ValidReg (i : Int) : Prop := 0 ≤ i ∧ i < 8

/-- The register an index names, if it names one. -/
def resolveReg (i : Int) : Option RegIndex :=
  if h : ValidReg i then some ⟨i.toNat, by have := h.1; have := h.2; omega⟩ else none

/-- Goes on with the register that `i` names, or raises InvalidRegisterIndex (R194). -/
def withReg (i : Int) (k : RegIndex → Answer) : Answer :=
  match resolveReg i with
  | some r => k r
  | none => .fault .invalidRegisterIndex

end Sys2Proof.Machine
end

