-- ==== Sys2Proof/Machine/Arithmetic.lean ====
section
/-! DEFINITION. The add instructions, ADD_REG and ADD_IMM (R150, R151). -/

namespace Sys2Proof.Machine

/-- `ADD_REG(Rt, Rs)`: `x[rt] <- x[rt] +32 x[rs]`; both indices are checked, and both registers read,
before the write (R150). -/
def execAddReg (rt rs : Int) (s : State) : Answer :=
  withReg rt fun t => withReg rs fun u =>
    .next ((s.setReg t (add32 (s.getReg t) (s.getReg u))).retire [])

/-- `ADD_IMM(Rt, imm)`: `x[rt] <- x[rt] +32 imm`, after the check of `rt` (R151). -/
def execAddImm (rt : Int) (imm : Word) (s : State) : Answer :=
  withReg rt fun t => .next ((s.setReg t (add32 (s.getReg t) imm)).retire [])

end Sys2Proof.Machine
end

