-- ==== Sys2Proof/Machine/Move.lean ====
section
/-! DEFINITION. The move instruction, MOV_IMM (R140). -/

namespace Sys2Proof.Machine

/-- `MOV_IMM(Rt, imm)`: `x[rt] <- imm`, after the check of `rt` (R140). -/
def execMovImm (rt : Int) (imm : Word) (s : State) : Answer :=
  withReg rt fun t => .next ((s.setReg t imm).retire [])

end Sys2Proof.Machine
end

