-- ==== Sys2Proof/Machine/System.lean ====
section
/-! DEFINITION. The system instructions, TRAP and HALT (R170, R171). No instruction is privileged (R177, R206). -/

namespace Sys2Proof.Machine

/-- `TRAP`: takes the trap; legal and the same in both modes (R170, R199). -/
def execTrap (s : State) : Answer := .next s.takeTrap

/-- `HALT`: reports Stop with the CPU State unchanged; no halted latch, so a further step executes the
same `HALT` again (R121, R171). -/
def execHalt (s : State) : Answer := .next s.stop

end Sys2Proof.Machine
end

