-- ==== Sys2Proof/Machine/Dispatch.lean ====
section
/-! DEFINITION. Dispatch: one arm per instruction (R113). -/

namespace Sys2Proof.Machine

-- The body of each instruction's arm and the advance after it (R111, R114).
def exec (i : Instr) (s : State) : Host.Outcome State Fault Refusal :=
  match i with
  | .movImm rt imm => Sys2Proof.Machine.execMovImm rt imm s
  | .addReg rt rs => Sys2Proof.Machine.execAddReg rt rs s
  | .addImm rt imm => Sys2Proof.Machine.execAddImm rt imm s
  | .trap => Sys2Proof.Machine.execTrap s
  | .halt => Sys2Proof.Machine.execHalt s

end Sys2Proof.Machine
end

