-- ==== Sys2Proof/Machine/Step.lean ====
section
/-! DEFINITION. The one operation of the engine, the step: fetch, decode and execute, advance (R111). -/

namespace Sys2Proof.Machine

/-- One step (R111): the bounds check and the fetch come first (R112), then the dispatch on the opcode
(R113); each arm ends with its own advance (R114) or stop. A fault leaves no next state: the CPU State
stays as it was (R116, log 7). -/
def step (s : State) : Host.Outcome State Fault Refusal :=
  match s.store.iFetch s.cpu.pc with
  | none => .fault .outOfBoundsFetch
  | some w =>
    match decodeWord w with
    | .illegal => .fault .unknownOpcode
    | .instr i => exec i s

/-- `s` with a word of the opcode table loaded into the slot the next step fetches, as the loader's
`populate` does it (R56, log 6). Where `pc >= CAP` there is no such slot, the load is refused and
nothing changes (R57). -/
def State.withFetchWord (s : State) (nbits w : Nat) : State :=
  { s with store := (s.store.populate s.cpu.pc (tableWord nbits w)).store }

end Sys2Proof.Machine
end

