-- ==== Sys2Proof/Machine/Assembly.lean ====
section
/-! DEFINITION. The assembler notation: one instruction a line, line n to slot n (R93). -/

namespace Sys2Proof.Machine

/-- A line, or a part of one, as its characters. -/
abbrev Chars := List Char

/-! ### Numbers -/

/-- The value of a digit in this base: `0`..`9`, then `a`..`f` and `A`..`F`. -/
def digitValue (base : Nat) (c : Char) : Option Nat :=
  let v :=
    if '0' ≤ c ∧ c ≤ '9' then c.toNat - 48
    else if 'a' ≤ c ∧ c ≤ 'f' then c.toNat - 87
    else if 'A' ≤ c ∧ c ≤ 'F' then c.toNat - 55
    else base
  if v < base then some v else none

/-- Reads the digits after those whose value is `acc`. -/
def readDigits (base : Nat) : Nat → Chars → Option Nat
  | acc, [] => some acc
  | acc, c :: cs =>
    match digitValue base c with
    | some d => readDigits base (acc * base + d) cs
    | none => none

/-- A natural number: one digit or more. -/
def readNat (base : Nat) : Chars → Option Nat
  | [] => none
  | cs => readDigits base 0 cs

/-- A decimal integer. -/
def readInt : Chars → Option Int
  | '-' :: cs => (readNat 10 cs).map fun n => -(n : Int)
  | cs => (readNat 10 cs).map fun n => (n : Int)

/-! ### Operands -/

/-- An immediate: a `0x` pattern of at most eight digits, or a decimal integer in
`[-2147483648, 2147483647]` (R93). -/
def readImmediate : Chars → Option Word
  | '0' :: 'x' :: cs =>
    if cs.length ≤ 8 then (readNat 16 cs).map fun n => BitVec.ofNat 32 n else none
  | cs =>
    match readInt cs with
    | some v => if operandFits v then some (BitVec.ofInt 32 v) else none
    | none => none

/-- A register: its name `R0`..`R7`, or, for an index out of range only, a bare integer (R93). -/
def readRegister : Chars → Option Int
  | ['R', c] =>
    match digitValue 8 c with
    | some d => some (d : Int)
    | none => none
  | cs =>
    match readInt cs with
    | some v => if ValidReg v then none else some v
    | none => none

/-! ### Lines -/

/-- What stands after this name, if the line begins with it. -/
def afterName : Chars → Chars → Option Chars
  | [], cs => some cs
  | _ :: _, [] => none
  | n :: name, c :: cs => if n = c then afterName name cs else none

/-- Splits at the first comma. -/
def splitComma : Chars → Option (Chars × Chars)
  | [] => none
  | c :: cs => if c = ',' then some ([], cs) else (splitComma cs).map fun p => (c :: p.1, p.2)

/-- What stands before the parenthesis that closes the line. -/
def beforeClose : Chars → Option Chars
  | [] => none
  | [c] => if c = ')' then some [] else none
  | c :: cs => (beforeClose cs).map fun r => c :: r

/-- The two operands of `NAME(a,b)`; spaces may follow the comma (R93, log 11). -/
def operands (name cs : Chars) : Option (Chars × Chars) :=
  match (afterName name cs).bind splitComma with
  | some (a, rest) => (beforeClose (rest.dropWhile fun c => c = ' ')).map fun b => (a, b)
  | none => none

/-- The instruction of a two-operand form, given how its operands are read. -/
def readForm {α : Type} (name : Chars) (second : Chars → Option α) (make : Int → α → Instr)
    (cs : Chars) : Option Instr :=
  match operands name cs with
  | some (a, b) =>
    match readRegister a, second b with
    | some r, some v => some (make r v)
    | _, _ => none
  | none => none

/-- How a `MOV_IMM` line begins. -/
def movImmName : Chars := ['M', 'O', 'V', '_', 'I', 'M', 'M', '(']

/-- How an `ADD_REG` line begins. -/
def addRegName : Chars := ['A', 'D', 'D', '_', 'R', 'E', 'G', '(']

/-- How an `ADD_IMM` line begins. -/
def addImmName : Chars := ['A', 'D', 'D', '_', 'I', 'M', 'M', '(']

/-- The `TRAP` line. -/
def trapName : Chars := ['T', 'R', 'A', 'P']

/-- The `HALT` line. -/
def haltName : Chars := ['H', 'A', 'L', 'T']

/-- The record a line spells, whether or not it has a word. -/
def readLine (cs : Chars) : Option Instr :=
  if cs = trapName then some .trap
  else if cs = haltName then some .halt
  else
    ((readForm movImmName readImmediate Instr.movImm cs).or
      (readForm addRegName readRegister Instr.addReg cs)).or
      (readForm addImmName readImmediate Instr.addImm cs)

/-- The instruction of one line of the notation: one that has a word (R91, R93). -/
def assembleLine (cs : Chars) : Option Instr :=
  match readLine cs with
  | some i => if i.wellFormed then some i else none
  | none => none

/-- The words of a program, one line each: every line assembles to its canonical word (R93). -/
def assembleProgram : List Chars → Option (List InstrWord)
  | [] => some []
  | l :: ls =>
    match assembleLine l, assembleProgram ls with
    | some i, some ws => some (encode i :: ws)
    | _, _ => none

/-- Words loaded to consecutive slots from `n` on, each by `populate`: line `n` goes to slot `n` (R56,
R93). A word past the last slot is refused, as `populate` refuses it. -/
def loadWords (st : InstructionStore) : Nat → List InstrWord → InstructionStore
  | _, [] => st
  | n, w :: ws =>
    loadWords (if n < 2 ^ 32 then (st.populate (BitVec.ofNat 32 n) w).store else st) (n + 1) ws

/-! ### Writing the notation -/

/-- A decimal integer. -/
def intText (v : Int) : Chars :=
  if v < 0 then '-' :: Nat.toDigits 10 (-v).toNat else Nat.toDigits 10 v.toNat

/-- A register operand: its name where it names a register, the bare integer otherwise (R93). -/
def registerText (i : Int) : Chars :=
  if ValidReg i then 'R' :: Nat.toDigits 10 i.toNat else intText i

/-- The line of an instruction. -/
def lineText : Instr → Chars
  | .movImm rt imm =>
    movImmName ++ registerText rt ++ ',' :: (intText imm.toInt ++ [')'])
  | .addReg rt rs =>
    addRegName ++ registerText rt ++ ',' :: (registerText rs ++ [')'])
  | .addImm rt imm =>
    addImmName ++ registerText rt ++ ',' :: (intText imm.toInt ++ [')'])
  | .trap => trapName
  | .halt => haltName

end Sys2Proof.Machine
end

