-- ==== Sys2Proof/Machine/MultiEngine.lean ====
section
/-! DEFINITION. Several engines on one read-only store, each with its own CPU State (R70, R210, R242). -/

namespace Sys2Proof.Machine

/-- One engine: its own CPU State and its last report. -/
structure Engine where
  cpu : CpuState
  report : StepReport
  deriving DecidableEq, Repr

/-- Engines sharing one store (R70). -/
structure EngineSystem where
  engines : List Engine
  store : InstructionStore
  deriving DecidableEq, Repr

/-- The machine that engine `e` is, on the shared store. -/
def EngineSystem.machine (y : EngineSystem) (e : Engine) : State := ⟨e.cpu, y.store, e.report⟩

/-- The engine a machine is, without the store. -/
def Engine.ofState (s : State) : Engine := ⟨s.cpu, s.report⟩

/-- The system with engine `k` become the engine of `s`; the store and the other engines stay. -/
def EngineSystem.put (y : EngineSystem) (k : Fin y.engines.length) (s : State) : EngineSystem :=
  { y with engines := y.engines.set k (Engine.ofState s) }

/-- A newly made system of `n` engines on a populated store: each engine is in the reset state of its own,
and the store is as the loader left it (R70, R210, R233). -/
def EngineSystem.boot (n : Nat) (store : InstructionStore) : EngineSystem :=
  ⟨List.replicate n (Engine.ofState State.reset), store⟩

/-- The reset request of engine `k`: that engine's CPU State alone gets its reset values (R210, R230). -/
def EngineSystem.resetEngine (y : EngineSystem) (k : Fin y.engines.length) : EngineSystem :=
  y.put k (y.machine y.engines[k]).resetCpu

/-- One step of engine `k`: the step of a machine made of its own CPU State and the shared store (R70).
Which engine steps next is the host's choice, so it is an argument (log 12). A fault is the outcome of
this engine's step alone: the system stays as it was and the other engines can step on. -/
def EngineSystem.stepEngine (y : EngineSystem) (k : Fin y.engines.length) :
    Host.Outcome EngineSystem Fault Refusal :=
  match step (y.machine y.engines[k]) with
  | .next t => .next (y.put k t)
  | .fault f => .fault f
  | .refused r => .refused r

end Sys2Proof.Machine
end

