-- ==== Sys2Proof/Machine/Ports.lean ====
section
/-! DEFINITION. The outputs of a step as the spec gives them, and the ports of the block with their codes (R110, R127, R191). -/

namespace Sys2Proof.Machine

/-- The outcome of a step (R115). -/
inductive StepOutcome where
  | continued
  | stopped
  | fault (f : Fault)
  /-- A refusal of the model; no step answers it. -/
  | refused (r : Refusal)
  deriving DecidableEq, Repr

/-- The outputs of a step: the next CPU State, the outcome, and the events (R110). -/
structure StepResult where
  cpu : CpuState
  outcome : StepOutcome
  events : List Event
  deriving DecidableEq, Repr

/-- The outcome a signal stands for. -/
def Signal.outcome : Signal → StepOutcome
  | .continued => .continued
  | .stopped => .stopped

/-- The triple a step at `s` puts out; a fault leaves the CPU State as it was and emits no event (R110,
R116). -/
def stepResult (s : State) : StepResult :=
  match step s with
  | .next t => ⟨t.cpu, t.report.signal.outcome, t.report.events⟩
  | .fault f => ⟨s.cpu, .fault f, []⟩
  | .refused r => ⟨s.cpu, .refused r, []⟩

/-- The code of an outcome on the port `outcome` (R191). Code 3 is never produced; it stands for the
model's refusals, which no step answers. -/
def StepOutcome.code : StepOutcome → BitVec 2
  | .continued => 0
  | .stopped => 1
  | .fault _ => 2
  | .refused _ => 3

/-- The code of a fault (R191). -/
def Fault.code : Fault → BitVec 2
  | .outOfBoundsFetch => 1
  | .unknownOpcode => 2
  | .invalidRegisterIndex => 3

/-- The code on the port `fault_code`: 0 whenever the outcome is not a fault (R191). -/
def StepOutcome.faultCode : StepOutcome → BitVec 2
  | .fault f => f.code
  | _ => 0

/-- The bit of a mode (R31). -/
def Mode.bit : Mode → BitVec 1
  | .user => 0
  | .kernel => 1

/-- The output ports of the engine for one step request (R127). -/
structure PortOutputs where
  imemIndex : BitVec 32
  outcome : BitVec 2
  faultCode : BitVec 2
  evTrapRaised : BitVec 1
  evHaltReached : BitVec 1
  obsRegs : RegFile
  obsPc : BitVec 32
  obsMode : BitVec 1
  obsIe : BitVec 1
  deriving DecidableEq, Repr

/-- What the ports show for a step at `s`: the fetch index, the step's outputs, and the CPU State as it
can be read after the step (R127). -/
def stepPorts (s : State) : PortOutputs where
  imemIndex := s.cpu.pc
  outcome := (stepResult s).outcome.code
  faultCode := (stepResult s).outcome.faultCode
  evTrapRaised := BitVec.ofBool (decide (Event.trapRaised ∈ (stepResult s).events))
  evHaltReached := BitVec.ofBool (decide (Event.haltReached ∈ (stepResult s).events))
  obsRegs := (stepResult s).cpu.regs
  obsPc := (stepResult s).cpu.pc
  obsMode := (stepResult s).cpu.mode.bit
  obsIe := BitVec.ofBool (stepResult s).cpu.interruptsEnabled

end Sys2Proof.Machine
end

