-- ==== Sys2Proof/Machine/Session.lean ====
section
/-! DEFINITION. The host's moves and when it has them: construct, populate, reset, step (R56 to R59, R126, R233). -/

namespace Sys2Proof.Machine

/-- Where the machine stands in its use by the host (R58). -/
inductive Phase where
  /-- Reset, and no step made since. -/
  | ready
  /-- An execution is in progress. -/
  | executing
  /-- The last step returned Stop or a fault. -/
  | ended
  deriving DecidableEq, Repr

/-- A request of the host (R126). -/
inductive HostMove where
  /-- Make a new store of this capacity, every slot empty (R55). -/
  | constructStore (capacity : SlotIndex)
  /-- `populate` one slot (R56). -/
  | load (index : SlotIndex) (w : InstrWord)
  /-- The reset request (R230). -/
  | resetCpu
  /-- The step request (R110). -/
  | step
  deriving DecidableEq, Repr

/-- What the host is told. -/
inductive HostAnswer where
  | done
  /-- The port `ld_ok` (R127). -/
  | loaded (ok : Bool)
  | stepped (r : StepResult)
  deriving DecidableEq, Repr

/-- The machine and where its use stands. -/
structure Session where
  machine : State
  phase : Phase
  deriving DecidableEq, Repr

/-- A newly made machine: an empty store and a CPU in the reset state (R233). -/
def Session.boot : Session := ⟨State.reset, .ready⟩

/-- The machine after a step request; a fault leaves it as it was (R116). -/
def State.afterStep (s : State) : State :=
  match Sys2Proof.Machine.step s with
  | .next t => t
  | .fault _ => s
  | .refused _ => s

/-- The phase after a step with this outcome (R58, R125). -/
def StepOutcome.phase : StepOutcome → Phase
  | .continued => .executing
  | _ => .ended

/-- One move of the host: its answer and the session after it, or `none` where the host has no such move.
The store cannot be written while an execution is in progress (R59, R241, log 10); reset and step are
always there (R121, R122). -/
def Session.move (m : HostMove) (x : Session) : Option (HostAnswer × Session) :=
  match m with
  | .constructStore cap =>
    if x.phase = .executing then none
    else some (.done, { x with machine :=
      { x.machine with store := InstructionStore.constructEmpty cap } })
  | .load index w =>
    if x.phase = .executing then none
    else some (.loaded (x.machine.store.populate index w).ok,
      { x with machine := { x.machine with store := (x.machine.store.populate index w).store } })
  | .resetCpu => some (.done, ⟨x.machine.resetCpu, .ready⟩)
  | .step => some (.stepped (stepResult x.machine),
      ⟨x.machine.afterStep, (stepResult x.machine).outcome.phase⟩)

end Sys2Proof.Machine
end

