-- ==== Sys2Proof/Machine/Run.lean ====
section
/-! DEFINITION. The driver's loop and what a run is: it steps until Stop or a fault (R124, R125). -/

namespace Sys2Proof.Machine

/-- How a run stands after the steps it was given (R125). -/
inductive RunEnd where
  /-- Its last step returned Stop: it ended normally. -/
  | stopped
  /-- Its last step failed with this fault: it went wrong. -/
  | faulted (f : Fault)
  /-- The model refused; no run ends so. -/
  | refused (r : Refusal)
  /-- Every step so far returned Continue. -/
  | unfinished
  deriving DecidableEq, Repr

/-- The complete observable result of a run (R125): the final state, the final outcome, the events in
step order; and the number of steps made, the failing one included. -/
structure RunResult where
  final : State
  ending : RunEnd
  events : List Event
  steps : Nat
  deriving DecidableEq, Repr

/-- The result of a run that made one completed step before `r`. -/
def RunResult.after (r : RunResult) (events : List Event) : RunResult :=
  { r with events := events ++ r.events, steps := r.steps + 1 }

/-- The driver with at most `n` steps from `s` (R124). -/
def drive : Nat → State → RunResult
  | 0, s => ⟨s, .unfinished, [], 0⟩
  | n + 1, s =>
    match step s with
    | .next t =>
      match t.report.signal with
      | .continued => (drive n t).after t.report.events
      | .stopped => ⟨t, .stopped, t.report.events, 1⟩
    | .fault f => ⟨s, .faulted f, [], 1⟩
    | .refused r => ⟨s, .refused r, [], 1⟩

end Sys2Proof.Machine
end

