-- ==== Sys2Proof/Safety.lean ====
section
/-! DEFINITION. What counts as a safe step and a safe run, and the terms the claims are stated in. -/

namespace Sys2Proof.Machine

/-- A step is safe if it does not fail: it returns Continue or Stop (R115, R195). -/
def SafeStep (s : State) : Prop := ∃ t, step s = .next t

/-- A run from `s` ends normally: some step of it returns Stop (R125, R195). -/
def EndsNormally (s : State) : Prop := ∃ n, (drive n s).ending = .stopped

/-- The invariant of the machine: the store is in canonical form within its slots, and `pc` does not
exceed `CAP` (R28, R52). -/
abbrev State.Inv (s : State) : Prop := s.store.wf ∧ s.cpu.pc ≤ s.store.capacity

/-- The store is left as it was, which is every byte of it and its capacity (R50, R58). -/
def StoreKept (s t : State) : Prop :=
  t.store = s.store ∧ ∀ a, Memory.readByte t.store.memory a = Memory.readByte s.store.memory a

/-- What a completed register instruction leaves: register `d` holds `v`, every other register is as it
was, `pc` is advanced, `mode` and `interrupts_enabled` and every byte of the store are as they were, and
the step reports Continue with no event (R24, R114, R118). -/
def CompletesWriting (s t : State) (d : Int) (v : Word) : Prop :=
  (∀ q : RegIndex, t.getReg q = if (q : Int) = d then v else s.getReg q) ∧
  t.cpu.pc = s.cpu.pc + 1 ∧ t.cpu.mode = s.cpu.mode ∧
  t.cpu.interruptsEnabled = s.cpu.interruptsEnabled ∧ StoreKept s t ∧
  t.report = ⟨.continued, []⟩

/-- `w[63:48]` as a number, read off the word by division (R83). -/
def opNat (w : InstrWord) : Nat := w.toNat / 2 ^ 48

/-- `w[47:32]` as a number (R83). -/
def rtNat (w : InstrWord) : Nat := w.toNat / 2 ^ 32 % 2 ^ 16

/-- `w[31:0]` as a number (R83). -/
def opndNat (w : InstrWord) : Nat := w.toNat % 2 ^ 32

/-- The word spells an instruction whose register indices are all in range: the word on which a step does
not fail (R87, R194). An index read from `opnd` is in range exactly when `opnd[31:3] = 0` (R85). -/
def WordExecutes (w : InstrWord) : Prop :=
  (opNat w = 0 ∧ rtNat w < 8) ∨ (opNat w = 1 ∧ rtNat w < 8 ∧ opndNat w < 8) ∨
  (opNat w = 2 ∧ rtNat w < 8) ∨ opNat w = 3 ∨ opNat w = 4

/-- Instructions executed one after another, stopping at the first that answers no next state. -/
def execAll : List Instr → State → Answer
  | [], s => .next s
  | i :: is, s =>
    match exec i s with
    | .next t => execAll is t
    | .fault f => .fault f
    | .refused r => .refused r

/-- One addend of a register: an immediate, or another register. -/
inductive Addend where
  | imm (v : Word)
  | reg (u : RegIndex)
  deriving DecidableEq, Repr

/-- The instruction that adds an addend to register `r`. -/
def Addend.instr (r : RegIndex) : Addend → Instr
  | .imm v => .addImm r v
  | .reg u => .addReg r u

/-- The value of an addend. -/
def Addend.value (s : State) : Addend → Word
  | .imm v => v
  | .reg u => s.getReg u

/-- A state with its `interrupts_enabled` replaced, to say that nothing depends on it (R33). No move of
the machine does this (R126). -/
def State.withInterruptsEnabled (s : State) (b : Bool) : State :=
  { s with cpu := { s.cpu with interruptsEnabled := b } }

end Sys2Proof.Machine
end

