-- ==== Sys2Proof/Certificates/Slice0/Obligations.lean ====
section
/-! DEFINITION. The statements for the provers, each formalising rules of the spec. -/

open Sys2Proof Sys2Proof.Machine

/-! ### The instructions -/

/-- R140, whole: `MOV_IMM` on every register and immediate writes the immediate and nothing else; its
encoding; with a target that is no register the step fails and changes nothing. -/
def Obligations.MovImmLoadsTheImmediate : Prop :=
  (∀ (s : State) (r : RegIndex) (imm : Word),
    ∃ t, exec (.movImm r imm) s = .next t ∧ CompletesWriting s t r imm) ∧
  (∀ (s : State) (rt : Int) (imm : Word), ¬ ValidReg rt →
    exec (.movImm rt imm) s = .fault .invalidRegisterIndex) ∧
  (∀ (rt : BitVec 16) (imm : Word),
    decodeWord (0x0000#16 ++ rt ++ imm) = .instr (.movImm rt.toNat imm)) ∧
  (∀ (s : State) (rt : BitVec 16) (imm : Word),
    s.store.iFetch s.cpu.pc = some (0x0000#16 ++ rt ++ imm) → 8 ≤ rt.toNat →
    stepResult s = ⟨s.cpu, .fault .invalidRegisterIndex, []⟩)

/-- R150, whole: `ADD_REG` on every pair of registers, the same one twice included, writes the sum of the
two old values and nothing else; its encoding; with either index no register the step fails and changes
nothing. -/
def Obligations.AddRegAddsTheRegisters : Prop :=
  (∀ (s : State) (r u : RegIndex), ∃ t, exec (.addReg r u) s = .next t ∧
    CompletesWriting s t r (BitVec.ofNat 32 ((s.getReg r).toNat + (s.getReg u).toNat))) ∧
  (∀ (s : State) (rt rs : Int), ¬ ValidReg rt ∨ ¬ ValidReg rs →
    exec (.addReg rt rs) s = .fault .invalidRegisterIndex) ∧
  (∀ (rt : BitVec 16) (opnd : BitVec 32),
    decodeWord (0x0001#16 ++ rt ++ opnd) = .instr (.addReg rt.toNat opnd.toInt)) ∧
  (∀ (s : State) (rt : BitVec 16) (opnd : BitVec 32),
    s.store.iFetch s.cpu.pc = some (0x0001#16 ++ rt ++ opnd) →
    8 ≤ rt.toNat ∨ opnd.toInt < 0 ∨ 8 ≤ opnd.toInt →
    stepResult s = ⟨s.cpu, .fault .invalidRegisterIndex, []⟩)

/-- R151, whole: `ADD_IMM` on every register and immediate writes the sum and nothing else; its encoding;
with a target that is no register the step fails and changes nothing. -/
def Obligations.AddImmAddsTheImmediate : Prop :=
  (∀ (s : State) (r : RegIndex) (imm : Word), ∃ t, exec (.addImm r imm) s = .next t ∧
    CompletesWriting s t r (BitVec.ofNat 32 ((s.getReg r).toNat + imm.toNat))) ∧
  (∀ (s : State) (rt : Int) (imm : Word), ¬ ValidReg rt →
    exec (.addImm rt imm) s = .fault .invalidRegisterIndex) ∧
  (∀ (rt : BitVec 16) (imm : Word),
    decodeWord (0x0002#16 ++ rt ++ imm) = .instr (.addImm rt.toNat imm)) ∧
  (∀ (s : State) (rt : BitVec 16) (imm : Word),
    s.store.iFetch s.cpu.pc = some (0x0002#16 ++ rt ++ imm) → 8 ≤ rt.toNat →
    stepResult s = ⟨s.cpu, .fault .invalidRegisterIndex, []⟩)

/-- R170, whole: `TRAP` sets the mode to KERNEL from either mode, emits TrapRaised, advances `pc`, and
changes and saves nothing else; every word with opcode field 3 is a `TRAP`. -/
def Obligations.TrapRaisesTheModeAndGoesOn : Prop :=
  (∀ s : State, ∃ t, exec .trap s = .next t ∧ (∀ q, t.getReg q = s.getReg q) ∧
    t.cpu.mode = .kernel ∧ t.cpu.pc = s.cpu.pc + 1 ∧
    t.cpu.interruptsEnabled = s.cpu.interruptsEnabled ∧ StoreKept s t ∧
    t.report = ⟨.continued, [.trapRaised]⟩) ∧
  (∀ (rt : BitVec 16) (opnd : BitVec 32), decodeWord (0x0003#16 ++ rt ++ opnd) = .instr .trap)

/-- R171, whole: `HALT` reports Stop and HaltReached and changes nothing, `pc` included; every word with
opcode field 4 is a `HALT`. -/
def Obligations.HaltStopsInPlace : Prop :=
  (∀ s : State, ∃ t, exec .halt s = .next t ∧ t.cpu = s.cpu ∧ StoreKept s t ∧
    t.report = ⟨.stopped, [.haltReached]⟩) ∧
  (∀ (rt : BitVec 16) (opnd : BitVec 32), decodeWord (0x0004#16 ++ rt ++ opnd) = .instr .halt)

/-! ### Arithmetic -/

/-- R152: the sum is exact modulo `2^32`, unsigned and signed; read as a signed value it is the true sum,
less `2^32` above the range, plus `2^32` below it. -/
def Obligations.SumWrapsModuloTwoToThe32 : Prop :=
  ∀ a b : Word,
    (add32 a b).toNat = (a.toNat + b.toNat) % 2 ^ 32 ∧
    add32 a b = BitVec.ofInt 32 (a.toInt + b.toInt) ∧
    (add32 a b).toInt =
      if a.toInt + b.toInt > 2147483647 then a.toInt + b.toInt - 4294967296
      else if a.toInt + b.toInt < -2147483648 then a.toInt + b.toInt + 4294967296
      else a.toInt + b.toInt

/-- R154, the algebra and its consequence: a sequence of adds to one register, of immediates and of other
registers, completes and accumulates the sum of its addends, in any grouping. (An `ADD_REG` of the register
to itself adds no fixed addend: it doubles, which AddRegAddsTheRegisters says.) -/
def Obligations.AddsAccumulateTheirAddends : Prop :=
  (∀ a b c : Word, add32 a b = add32 b a ∧ add32 (add32 a b) c = add32 a (add32 b c) ∧
    add32 a 0 = a ∧ add32 a (BitVec.ofInt 32 (-a.toInt)) = 0 ∧
    add32 0x80000000#32 0x80000000#32 = 0) ∧
  (∀ (s : State) (r : RegIndex) (as : List Addend), (∀ u, Addend.reg u ∈ as → u ≠ r) →
    ∃ t, execAll (as.map (Addend.instr r)) s = .next t ∧
      t.getReg r = add32 (s.getReg r) ((as.map (Addend.value s)).foldr add32 0) ∧
      (∀ q, q ≠ r → t.getReg q = s.getReg q) ∧
      t.cpu.pc = s.cpu.pc + BitVec.ofNat 32 as.length)

/-! ### The step -/

/-- R111 as a whole, on the raw word: what a step does for every program counter and every fetched word,
the word's fields read off it by division. -/
def Obligations.StepFollowsTheAlgorithm : Prop :=
  ∀ s : State,
    (s.store.capacity ≤ s.cpu.pc → step s = .fault .outOfBoundsFetch) ∧
    (s.cpu.pc < s.store.capacity → ∀ w, w = s.store.slotWord s.cpu.pc →
      (opNat w = 0 →
        (∀ r : RegIndex, r.val = rtNat w →
          ∃ t, step s = .next t ∧ CompletesWriting s t r (BitVec.ofNat 32 (opndNat w))) ∧
        (8 ≤ rtNat w → step s = .fault .invalidRegisterIndex)) ∧
      (opNat w = 1 →
        (∀ r u : RegIndex, r.val = rtNat w → u.val = opndNat w →
          ∃ t, step s = .next t ∧ CompletesWriting s t r (add32 (s.getReg r) (s.getReg u))) ∧
        (8 ≤ rtNat w ∨ 8 ≤ opndNat w → step s = .fault .invalidRegisterIndex)) ∧
      (opNat w = 2 →
        (∀ r : RegIndex, r.val = rtNat w → ∃ t, step s = .next t ∧
          CompletesWriting s t r (add32 (s.getReg r) (BitVec.ofNat 32 (opndNat w)))) ∧
        (8 ≤ rtNat w → step s = .fault .invalidRegisterIndex)) ∧
      (opNat w = 3 → ∃ t, step s = .next t ∧ (∀ q, t.getReg q = s.getReg q) ∧
        t.cpu.mode = .kernel ∧ t.cpu.pc = s.cpu.pc + 1 ∧
        t.cpu.interruptsEnabled = s.cpu.interruptsEnabled ∧ StoreKept s t ∧
        t.report = ⟨.continued, [.trapRaised]⟩) ∧
      (opNat w = 4 → ∃ t, step s = .next t ∧ t.cpu = s.cpu ∧ StoreKept s t ∧
        t.report = ⟨.stopped, [.haltReached]⟩) ∧
      (5 ≤ opNat w → step s = .fault .unknownOpcode))

/-- The bytes at the program counter decode to `i`: the step is `exec i` and nothing else around it. -/
def Obligations.StepRunsTheDecodedInstruction : Prop :=
  ∀ (s : State) (i : Instr), s.cpu.pc < s.store.capacity →
    decode (s.store.slotBytes s.cpu.pc) = .ok (i, []) → i.wellFormed = true ∧ step s = exec i s

/-- R112, whole: at and above the capacity the step fails first of all, with nothing changed, whatever
the store holds; below it the slot's word is fetched. -/
def Obligations.FetchPastTheCapacityFails : Prop :=
  ∀ (s : State) (m : Memory),
    (s.store.capacity ≤ s.cpu.pc →
      stepResult { s with store := { s.store with memory := m } } =
        ⟨s.cpu, .fault .outOfBoundsFetch, []⟩) ∧
    (s.cpu.pc < s.store.capacity →
      s.store.iFetch s.cpu.pc = some (s.store.slotWord s.cpu.pc) ∧
      step s ≠ .fault .outOfBoundsFetch)

/-- R190, R194 and R197: exactly when a step fails with each of the three faults, in their order; exactly
when it does not fail; and that it answers nothing else. -/
def Obligations.FaultsAreExactlyTheThree : Prop :=
  ∀ s : State,
    (step s = .fault .outOfBoundsFetch ↔ s.store.capacity ≤ s.cpu.pc) ∧
    (step s = .fault .unknownOpcode ↔
      s.cpu.pc < s.store.capacity ∧ 5 ≤ opNat (s.store.slotWord s.cpu.pc)) ∧
    (step s = .fault .invalidRegisterIndex ↔
      s.cpu.pc < s.store.capacity ∧ opNat (s.store.slotWord s.cpu.pc) < 5 ∧
        ¬ WordExecutes (s.store.slotWord s.cpu.pc)) ∧
    (SafeStep s ↔ s.cpu.pc < s.store.capacity ∧ WordExecutes (s.store.slotWord s.cpu.pc)) ∧
    (∀ r, step s ≠ .refused r)

/-- R27: how each outcome leaves `pc`; and the advance never wraps (R28), being a sum of numbers. -/
def Obligations.ProgramCounterAdvancesByOneOrStays : Prop :=
  ∀ s : State,
    ((stepResult s).outcome = .continued →
      (stepResult s).cpu.pc.toNat = s.cpu.pc.toNat + 1 ∧
      opNat (s.store.slotWord s.cpu.pc) < 4) ∧
    ((stepResult s).outcome = .stopped →
      (stepResult s).cpu.pc = s.cpu.pc ∧ opNat (s.store.slotWord s.cpu.pc) = 4) ∧
    (∀ f, (stepResult s).outcome = .fault f → (stepResult s).cpu.pc = s.cpu.pc)

/-- R118: TrapRaised is emitted exactly by an executed `TRAP`, HaltReached exactly by an executed `HALT`,
and no other event ever. -/
def Obligations.EventsComeFromTrapAndHaltOnly : Prop :=
  ∀ s : State,
    ((stepResult s).events = [.trapRaised] ↔
      s.cpu.pc < s.store.capacity ∧ opNat (s.store.slotWord s.cpu.pc) = 3) ∧
    ((stepResult s).events = [.haltReached] ↔
      s.cpu.pc < s.store.capacity ∧ opNat (s.store.slotWord s.cpu.pc) = 4) ∧
    ((stepResult s).events = [.trapRaised] ∨ (stepResult s).events = [.haltReached] ∨
      (stepResult s).events = [])

/-- R121, whole: after a step that returns Stop the state is as it was and `pc` indexes the `HALT`; a
further step does the same again. -/
def Obligations.StoppedStepRepeats : Prop :=
  ∀ s t : State, step s = .next t → t.report.signal = .stopped →
    t.cpu = s.cpu ∧ t.store = s.store ∧ opNat (t.store.slotWord t.cpu.pc) = 4 ∧
    step t = .next t ∧ t.report.events = [.haltReached]

/-- R24: a step changes no register but the target of a `MOV_IMM`, `ADD_REG` or `ADD_IMM` it executes. -/
def Obligations.OnlyTheTargetRegisterChanges : Prop :=
  ∀ (s t : State) (q : RegIndex), step s = .next t → t.getReg q ≠ s.getReg q →
    opNat (s.store.slotWord s.cpu.pc) ≤ 2 ∧ rtNat (s.store.slotWord s.cpu.pc) = q.val

/-- R172: KERNEL is entered only by executing `TRAP` and is never left by a step. -/
def Obligations.KernelIsASink : Prop :=
  ∀ s t : State, step s = .next t →
    (t.cpu.mode = .kernel ↔
      s.cpu.mode = .kernel ∨ opNat (s.store.slotWord s.cpu.pc) = 3)

/-- R206: the mode plays no part in a step. Replacing it changes nothing in the answer but the mode
itself. -/
def Obligations.ModePlaysNoPart : Prop :=
  ∀ (s : State) (m : Mode),
    (∀ t, step s = .next t →
      ∃ u, step (s.setMode m) = .next u ∧ u.setMode t.cpu.mode = t ∧
        (u.cpu.mode = m ∨ opNat (s.store.slotWord s.cpu.pc) = 3)) ∧
    (∀ f, step s = .fault f → step (s.setMode m) = .fault f)

/-- R33: a step neither changes `interrupts_enabled` nor depends on it, and the host can observe it. -/
def Obligations.InterruptsEnabledIsInert : Prop :=
  ∀ (s : State) (b : Bool),
    (∀ t, step s = .next t →
      t.cpu.interruptsEnabled = s.cpu.interruptsEnabled ∧
      step (s.withInterruptsEnabled b) = .next (t.withInterruptsEnabled b)) ∧
    (∀ f, step s = .fault f → step (s.withInterruptsEnabled b) = .fault f) ∧
    (stepPorts s).obsIe = BitVec.ofBool s.cpu.interruptsEnabled

/-- R120: the triple a step puts out is determined by the CPU State, the fetched word and the capacity;
by no other slot, and not by what an earlier step reported. -/
def Obligations.StepResultIsDetermined : Prop :=
  ∀ s₁ s₂ : State, s₁.cpu = s₂.cpu → s₁.store.capacity = s₂.store.capacity →
    (s₁.cpu.pc < s₁.store.capacity →
      s₁.store.slotWord s₁.cpu.pc = s₂.store.slotWord s₂.cpu.pc) →
    stepResult s₁ = stepResult s₂

/-- R50, R110: no step writes the store, not a byte of it. -/
def Obligations.StepNeverWritesTheStore : Prop :=
  ∀ s t : State, step s = .next t → StoreKept s t

/-- Every step keeps the invariant: the store canonical and within its slots, and `pc` at most `CAP`. -/
def Obligations.StepKeepsTheInvariant : Prop :=
  ∀ s t : State, s.Inv → step s = .next t → t.Inv

/-! ### Encoding -/

/-- The decoding of words written out from the encodings of R84 and R91; a sanity statement. -/
def Obligations.SampleWordsDecode : Prop :=
  decodeWord 0x000000000000000A#64 = .instr (.movImm 0 10) ∧
  decodeWord 0x0001000100000002#64 = .instr (.addReg 1 2) ∧
  decodeWord 0x00010001FFFFFFFF#64 = .instr (.addReg 1 (-1)) ∧
  decodeWord 0x00020001FFFFFFFC#64 = .instr (.addImm 1 (-4)) ∧
  decodeWord 0x0003FFFFFFFFFFFF#64 = .instr .trap ∧
  decodeWord 0x0004000000000000#64 = .instr .halt ∧
  decodeWord 0x0005000000000000#64 = .illegal

/-- R91, whole: the words of `Encode`; decoding the word of a record that has one gives the record back,
over words and over the bytes of a slot; encoding what a legal word decodes to gives the word back, or, for
opcodes 3 and 4, the word with its 48 unused bits cleared. -/
def Obligations.DecodeAndEncodeAgree : Prop :=
  (∀ (rt : BitVec 16) (imm : Word),
    encode (.movImm rt.toNat imm) = 0x0000#16 ++ rt ++ imm ∧
    encode (.addImm rt.toNat imm) = 0x0002#16 ++ rt ++ imm) ∧
  (∀ (rt : BitVec 16) (rs : Int), -2147483648 ≤ rs → rs < 2147483648 →
    encode (.addReg rt.toNat rs) = 0x0001#16 ++ rt ++ BitVec.ofInt 32 rs) ∧
  encode .trap = 0x0003000000000000#64 ∧ encode .halt = 0x0004000000000000#64 ∧
  (∀ i : Instr, i.wellFormed = true → decodeWord (encode i) = .instr i) ∧
  (∀ (i : Instr) (rest : List Byte), i.wellFormed = true →
    decode (encodeBytes i ++ rest) = .ok (i, rest)) ∧
  (∀ (w : InstrWord) (i : Instr), decodeWord w = .instr i →
    i.wellFormed = true ∧
    (opNat w ≤ 2 → encode i = w) ∧
    (3 ≤ opNat w → (encode i).toNat = opNat w * 2 ^ 48))

/-- R83 and R87: a word is its three fields, and it spells no instruction exactly when its opcode field is
above 4. -/
def Obligations.EveryBitBelongsToAField : Prop :=
  ∀ w : InstrWord,
    w.toNat = (opField w).toNat * 2 ^ 48 + (rtField w).toNat * 2 ^ 32 + (opndField w).toNat ∧
    w = joinFields (opField w) (rtField w) (opndField w) ∧
    (decodeWord w = .illegal ↔ 5 ≤ opNat w)

/-- Table words: loading a word that decodes to `i` where the next step fetches makes the very next step
`exec i`, with the CPU State as it was. The model's form of a load, see log 6. -/
def Obligations.LoadedWordRunsNext : Prop :=
  ∀ (s : State) (w : Nat) (i : Instr), Memory.wf s.store.memory →
    s.cpu.pc < s.store.capacity → decodeTableWord 64 w = some i →
    (s.withFetchWord 64 w).cpu = s.cpu ∧
    step (s.withFetchWord 64 w) = exec i (s.withFetchWord 64 w)

/-! ### The store -/

/-- R55: construct-empty fills every slot with the HALT word, and a slot in which nothing is listed, so one
never populated, executes as `HALT`. -/
def Obligations.NeverPopulatedSlotHalts : Prop :=
  (∀ cap i : SlotIndex, i < cap →
    (InstructionStore.constructEmpty cap).iFetch i = some 0x0004000000000000#64) ∧
  (∀ s : State, s.cpu.pc < s.store.capacity →
    (∀ c ∈ s.store.memory, c.1 / 8 ≠ s.cpu.pc.toNat) →
    step s = .next { s with report := ⟨.stopped, [.haltReached]⟩ })

/-- R56, R57: an accepted load sets its slot and changes no other slot, no byte outside it and not the
capacity; the last load of a slot counts; a bad index is refused without effect; the word is never looked
at. -/
def Obligations.PopulateSetsOneSlot : Prop :=
  ∀ st : InstructionStore, st.wf → ∀ (i : SlotIndex) (w : InstrWord),
    (i < st.capacity →
      (st.populate i w).ok = true ∧
      (st.populate i w).store.iFetch i = some w ∧
      (∀ j, j ≠ i → (st.populate i w).store.iFetch j = st.iFetch j) ∧
      (∀ a, a / 8 ≠ i.toNat → Memory.readByte (st.populate i w).store.memory a =
        Memory.readByte st.memory a) ∧
      (st.populate i w).store.capacity = st.capacity ∧
      (∀ w', ((st.populate i w').store.populate i w).store = (st.populate i w).store)) ∧
    (st.capacity ≤ i → st.populate i w = ⟨st, false⟩)

/-- Equal memories are equal data: two memories in canonical form that read the same everywhere are the
same list. The form is the model's, see log 3. -/
def Obligations.CanonicalMemoriesAreEqualData : Prop :=
  ∀ m n : Memory, Memory.wf m → Memory.wf n →
    (∀ a, Memory.readByte m a = Memory.readByte n a) → m = n

/-! ### Reset -/

/-- R39: the CPU State after reset, from any state and in `State.reset`; that a reset of the CPU leaves the
store; and that an empty slot holds the canonical HALT word. -/
def Obligations.ResetGivesTheEmptyCpuState : Prop :=
  (∀ s : State,
    (∀ q, s.resetCpu.getReg q = 0) ∧ s.resetCpu.cpu.pc = 0 ∧ s.resetCpu.cpu.mode = .user ∧
    s.resetCpu.cpu.interruptsEnabled = Config.ieReset ∧ StoreKept s s.resetCpu) ∧
  (∀ q, State.reset.getReg q = 0) ∧ State.reset.cpu.pc = 0 ∧ State.reset.cpu.mode = .user ∧
  State.reset.cpu.interruptsEnabled = Config.ieReset ∧
  (∀ cap i : SlotIndex, i < cap →
    (InstructionStore.constructEmpty cap).iFetch i = some 0x0004000000000000#64)

/-- The store of `State.reset`: the reference's capacity of R52 and the HALT word of R55 in every slot. That
the machine after reset has this store, newly constructed and of 1024 slots, is the model's choice: log 4
(DESIGN CHOICE) and log 6 (DEDUCED). -/
def Obligations.ResetStoreIsTheEmptyReferenceStore : Prop :=
  State.reset.store.capacity = 1024 ∧
  ∀ i : SlotIndex, i < 1024 → State.reset.store.iFetch i = some 0x0004000000000000#64

/-- The invariant that every step keeps holds after reset. -/
def Obligations.ResetMeetsTheInvariant : Prop := State.reset.Inv

/-! ### Runs -/

/-- R123: from any state at most `CAP - pc` steps return Continue (none where `pc >= CAP`) and the next
one ends the run; driving longer changes nothing; so a run from a reset CPU ends within `CAP + 1` steps. -/
def Obligations.EveryRunEnds : Prop :=
  (∀ s : State,
    ((drive (s.store.capacity.toNat - s.cpu.pc.toNat + 1) s).ending = .stopped ∨
      ∃ f, (drive (s.store.capacity.toNat - s.cpu.pc.toNat + 1) s).ending = .faulted f) ∧
    (drive (s.store.capacity.toNat - s.cpu.pc.toNat + 1) s).steps ≤
      s.store.capacity.toNat - s.cpu.pc.toNat + 1 ∧
    (∀ n, s.store.capacity.toNat - s.cpu.pc.toNat + 1 ≤ n →
      drive n s = drive (s.store.capacity.toNat - s.cpu.pc.toNat + 1) s)) ∧
  (∀ s : State, s.cpu = CpuState.reset → s.store.capacity = 1024 →
    ((drive 1025 s).ending = .stopped ∨ ∃ f, (drive 1025 s).ending = .faulted f) ∧
      (drive 1025 s).steps ≤ 1025)

/-- R125: a run that ended in Stop stands at the index of the `HALT` it executed, and HaltReached is its
last event and occurs once; a run that went wrong stands at what failed, so that a step from there fails the
same way, and it never emitted HaltReached. -/
def Obligations.EndOfARunIsWhereItStands : Prop :=
  ∀ (n : Nat) (s : State),
    ((drive n s).ending = .stopped →
      (drive n s).final.cpu.pc < s.store.capacity ∧
      opNat (s.store.slotWord (drive n s).final.cpu.pc) = 4 ∧
      ∃ es, (drive n s).events = es ++ [.haltReached] ∧ Event.haltReached ∉ es) ∧
    (∀ f, (drive n s).ending = .faulted f →
      step (drive n s).final = .fault f ∧ Event.haltReached ∉ (drive n s).events)

/-- R172, over runs: from a CPU in USER mode, as it is after reset, the mode is KERNEL exactly when a
`TRAP` has been executed; from KERNEL it stays KERNEL. -/
def Obligations.KernelExactlyAfterATrap : Prop :=
  ∀ (n : Nat) (s : State),
    (s.cpu.mode = .user →
      ((drive n s).final.cpu.mode = .kernel ↔ Event.trapRaised ∈ (drive n s).events)) ∧
    (s.cpu.mode = .kernel → (drive n s).final.cpu.mode = .kernel)

/-- R58, R34: a run leaves the store, every byte of it, and `interrupts_enabled` as they were, so that the
flag is `IE_RESET` in every state a run reaches from a reset CPU; and it keeps the invariant. -/
def Obligations.RunsKeepTheStoreAndTheFlag : Prop :=
  ∀ (n : Nat) (s : State),
    StoreKept s (drive n s).final ∧
    (drive n s).final.cpu.interruptsEnabled = s.cpu.interruptsEnabled ∧
    (s.cpu = CpuState.reset → (drive n s).final.cpu.interruptsEnabled = Config.ieReset) ∧
    (s.Inv → (drive n s).final.Inv)

/-- R125, R195: every run either ends normally or goes wrong, and not both. -/
def Obligations.RunsEndNormallyOrGoWrong : Prop :=
  ∀ s : State,
    (EndsNormally s ∨ ∃ n f, (drive n s).ending = .faulted f) ∧
    ¬ (EndsNormally s ∧ ∃ n f, (drive n s).ending = .faulted f)

/-! ### The outside -/

/-- R191: the codes on the ports `outcome` and `fault_code`, for every step; and R127 (with R118): the two
event ports are 1 exactly when the step emitted the event. -/
def Obligations.PortCodesOfEveryStep : Prop :=
  ∀ s : State,
    ((stepPorts s).outcome = 0 ↔ (stepResult s).outcome = .continued) ∧
    ((stepPorts s).outcome = 1 ↔ (stepResult s).outcome = .stopped) ∧
    ((stepPorts s).outcome = 2 ↔ ∃ f, (stepResult s).outcome = .fault f) ∧
    (stepPorts s).outcome ≠ 3 ∧
    ((stepPorts s).faultCode = 0 ↔ (stepPorts s).outcome ≠ 2) ∧
    ((stepPorts s).faultCode = 1 ↔ (stepResult s).outcome = .fault .outOfBoundsFetch) ∧
    ((stepPorts s).faultCode = 2 ↔ (stepResult s).outcome = .fault .unknownOpcode) ∧
    ((stepPorts s).faultCode = 3 ↔ (stepResult s).outcome = .fault .invalidRegisterIndex) ∧
    ((stepPorts s).evTrapRaised = 1 ↔ (stepResult s).events = [.trapRaised]) ∧
    ((stepPorts s).evHaltReached = 1 ↔ (stepResult s).events = [.haltReached])

/-- R58, R59, R56: while an execution is in progress the host has no move that writes the store; and a load
the host does have changes no CPU State. -/
def Obligations.NoStoreWriteDuringAnExecution : Prop :=
  ∀ (x y : Session) (m : HostMove) (a : HostAnswer), Session.move m x = some (a, y) →
    (x.phase = .executing → y.machine.store = x.machine.store ∧
      ∀ i w c, m ≠ .load i w ∧ m ≠ .constructStore c) ∧
    (∀ i w, m = .load i w → y.machine.cpu = x.machine.cpu ∧ y.phase = x.phase) ∧
    (x.machine.store.wf → y.machine.store.wf)

/-- R70: engines on one store do not interact. A step of engine `k` leaves the store and every other engine
as they were, and what it does to engine `k` depends only on that engine's CPU State and the store. -/
def Obligations.EnginesDoNotInteract : Prop :=
  (∀ (y y' : EngineSystem) (k : Fin y.engines.length), y.stepEngine k = .next y' →
    y'.store = y.store ∧ y'.engines.length = y.engines.length ∧
    ∀ j, j ≠ k.val → y'.engines[j]? = y.engines[j]?) ∧
  (∀ (y z : EngineSystem) (k : Fin y.engines.length) (l : Fin z.engines.length),
    y.store = z.store → y.engines[k].cpu = z.engines[l].cpu →
    (∀ y', y.stepEngine k = .next y' →
      ∃ z', z.stepEngine l = .next z' ∧ z'.engines[l.val]? = y'.engines[k.val]?) ∧
    (∀ f, y.stepEngine k = .fault f → z.stepEngine l = .fault f))

/-- R210: in a newly made system each engine is at its own reset, on the store as it was loaded; a reset of
engine `k` resets it alone; and the first step of an engine does what a single machine after reset does on
that store. (What an engine reports before its first step is the model's, log 2.) -/
def Obligations.EachEngineStartsFromItsOwnReset : Prop :=
  (∀ (n : Nat) (st : InstructionStore),
    (EngineSystem.boot n st).store = st ∧ (EngineSystem.boot n st).engines.length = n ∧
    ∀ e ∈ (EngineSystem.boot n st).engines, e.cpu = CpuState.reset) ∧
  (∀ (y : EngineSystem) (k : Fin y.engines.length),
    (y.resetEngine k).store = y.store ∧
    (y.resetEngine k).engines.length = y.engines.length ∧
    (∀ j, j ≠ k.val → (y.resetEngine k).engines[j]? = y.engines[j]?) ∧
    ∃ e, (y.resetEngine k).engines[k.val]? = some e ∧ e.cpu = CpuState.reset) ∧
  (∀ (n : Nat) (st : InstructionStore) (k : Fin (EngineSystem.boot n st).engines.length),
    (∀ t, step { State.reset with store := st } = .next t →
      ∃ y', (EngineSystem.boot n st).stepEngine k = .next y' ∧
        y'.engines[k.val]? = some ⟨t.cpu, t.report⟩) ∧
    (∀ f, step { State.reset with store := st } = .fault f →
      (EngineSystem.boot n st).stepEngine k = .fault f))

/-- R93: the line of every record that has a word assembles to that record, and with it to its canonical
word. What R93 leaves open of the notation is in log 11. -/
def Obligations.AssemblerReadsItsNotation : Prop :=
  ∀ i : Instr, i.wellFormed = true →
    assembleLine (lineText i) = some i ∧ assembleProgram [lineText i] = some [encode i]
end

