-- ==== Sys2Proof/Laws/Decode.lean ====
section
/-! SUPPORT. The fields of a word that is written from fields, and the cases of the decoder. -/

namespace Sys2Proof

@[simp] theorem opField_joinFields (op rt : BitVec 16) (o : BitVec 32) :
    opField (joinFields op rt o) = op := by
  simp only [opField, joinFields]
  ext i hi
  simp only [BitVec.getElem_extractLsb', BitVec.getLsbD_append]
  repeat' split
  all_goals first | omega | (rw [← BitVec.getLsbD_eq_getElem hi]; congr 1; omega)

@[simp] theorem rtField_joinFields (op rt : BitVec 16) (o : BitVec 32) :
    rtField (joinFields op rt o) = rt := by
  simp only [rtField, joinFields]
  ext i hi
  simp only [BitVec.getElem_extractLsb', BitVec.getLsbD_append]
  repeat' split
  all_goals first | omega | (rw [← BitVec.getLsbD_eq_getElem hi]; congr 1; omega)

@[simp] theorem opndField_joinFields (op rt : BitVec 16) (o : BitVec 32) :
    opndField (joinFields op rt o) = o := by
  simp only [opndField, joinFields]
  ext i hi
  simp only [BitVec.getElem_extractLsb', BitVec.getLsbD_append]
  repeat' split
  all_goals first | omega | (rw [← BitVec.getLsbD_eq_getElem hi]; congr 1; omega)

theorem targetFits_iff {rt : Int} : targetFits rt = true ↔ 0 ≤ rt ∧ rt < 65536 := by
  simp [targetFits]

theorem operandFits_iff {rs : Int} :
    operandFits rs = true ↔ -2147483648 ≤ rs ∧ rs < 2147483648 := by
  simp [operandFits]

/-- What the decoder can answer, by the value of the opcode field (R86). -/
theorem decodeWord_cases (w : InstrWord) :
    ((opField w).toNat = 0 ∧ decodeWord w =
        .instr (.movImm (targetIndex (rtField w)) (opndField w))) ∨
    ((opField w).toNat = 1 ∧ decodeWord w =
        .instr (.addReg (targetIndex (rtField w)) (operandIndex (opndField w)))) ∨
    ((opField w).toNat = 2 ∧ decodeWord w =
        .instr (.addImm (targetIndex (rtField w)) (opndField w))) ∨
    ((opField w).toNat = 3 ∧ decodeWord w = .instr .trap) ∨
    ((opField w).toNat = 4 ∧ decodeWord w = .instr .halt) ∨
    (5 ≤ (opField w).toNat ∧ decodeWord w = .illegal) := by
  unfold decodeWord
  split <;> simp_all [immediate]
  omega

end Sys2Proof
end

