-- ==== Sys2Proof/Laws/State.lean ====
section
/-! SUPPORT. What each field of the state is after each update: one lemma per field per update. -/

namespace Sys2Proof.Machine

@[simp] theorem State.setReg_pc (s : State) (r : RegIndex) (v : Word) :
    (s.setReg r v).cpu.pc = s.cpu.pc := rfl
@[simp] theorem State.setReg_mode (s : State) (r : RegIndex) (v : Word) :
    (s.setReg r v).cpu.mode = s.cpu.mode := rfl
@[simp] theorem State.setReg_interruptsEnabled (s : State) (r : RegIndex) (v : Word) :
    (s.setReg r v).cpu.interruptsEnabled = s.cpu.interruptsEnabled := rfl
@[simp] theorem State.setReg_store (s : State) (r : RegIndex) (v : Word) :
    (s.setReg r v).store = s.store := rfl
@[simp] theorem State.setReg_report (s : State) (r : RegIndex) (v : Word) :
    (s.setReg r v).report = s.report := rfl

@[simp] theorem State.setMode_regs (s : State) (m : Mode) :
    (s.setMode m).cpu.regs = s.cpu.regs := rfl
@[simp] theorem State.setMode_pc (s : State) (m : Mode) : (s.setMode m).cpu.pc = s.cpu.pc := rfl
@[simp] theorem State.setMode_mode (s : State) (m : Mode) : (s.setMode m).cpu.mode = m := rfl
@[simp] theorem State.setMode_interruptsEnabled (s : State) (m : Mode) :
    (s.setMode m).cpu.interruptsEnabled = s.cpu.interruptsEnabled := rfl
@[simp] theorem State.setMode_store (s : State) (m : Mode) : (s.setMode m).store = s.store := rfl
@[simp] theorem State.setMode_report (s : State) (m : Mode) : (s.setMode m).report = s.report := rfl
@[simp] theorem State.setMode_getReg (s : State) (m : Mode) (q : RegIndex) :
    (s.setMode m).getReg q = s.getReg q := rfl

@[simp] theorem State.retire_regs (s : State) (es : List Event) :
    (s.retire es).cpu.regs = s.cpu.regs := rfl
@[simp] theorem State.retire_pc (s : State) (es : List Event) :
    (s.retire es).cpu.pc = s.cpu.pc + 1 := rfl
@[simp] theorem State.retire_mode (s : State) (es : List Event) :
    (s.retire es).cpu.mode = s.cpu.mode := rfl
@[simp] theorem State.retire_interruptsEnabled (s : State) (es : List Event) :
    (s.retire es).cpu.interruptsEnabled = s.cpu.interruptsEnabled := rfl
@[simp] theorem State.retire_store (s : State) (es : List Event) :
    (s.retire es).store = s.store := rfl
@[simp] theorem State.retire_report (s : State) (es : List Event) :
    (s.retire es).report = ⟨.continued, es⟩ := rfl
@[simp] theorem State.retire_getReg (s : State) (es : List Event) (q : RegIndex) :
    (s.retire es).getReg q = s.getReg q := rfl

@[simp] theorem State.stop_cpu (s : State) : s.stop.cpu = s.cpu := rfl
@[simp] theorem State.stop_store (s : State) : s.stop.store = s.store := rfl
@[simp] theorem State.stop_report (s : State) : s.stop.report = ⟨.stopped, [.haltReached]⟩ := rfl

@[simp] theorem State.takeTrap_regs (s : State) : s.takeTrap.cpu.regs = s.cpu.regs := rfl
@[simp] theorem State.takeTrap_pc (s : State) : s.takeTrap.cpu.pc = s.cpu.pc + 1 := rfl
@[simp] theorem State.takeTrap_mode (s : State) : s.takeTrap.cpu.mode = .kernel := rfl
@[simp] theorem State.takeTrap_interruptsEnabled (s : State) :
    s.takeTrap.cpu.interruptsEnabled = s.cpu.interruptsEnabled := rfl
@[simp] theorem State.takeTrap_store (s : State) : s.takeTrap.store = s.store := rfl
@[simp] theorem State.takeTrap_report (s : State) :
    s.takeTrap.report = ⟨.continued, [.trapRaised]⟩ := rfl
@[simp] theorem State.takeTrap_getReg (s : State) (q : RegIndex) :
    s.takeTrap.getReg q = s.getReg q := rfl

@[simp] theorem State.resetCpu_cpu (s : State) : s.resetCpu.cpu = CpuState.reset := rfl
@[simp] theorem State.resetCpu_store (s : State) : s.resetCpu.store = s.store := rfl
@[simp] theorem State.resetCpu_report (s : State) : s.resetCpu.report = s.report := rfl

/-- Reading a register after a write: the written value at its own register, the old value at every
other. -/
theorem State.getReg_setReg (s : State) (r q : RegIndex) (v : Word) :
    (s.setReg r v).getReg q = if q = r then v else s.getReg q := by
  simp only [State.getReg, State.setReg, Fin.getElem_fin, Vector.getElem_set]
  by_cases h : q = r
  · simp [h]
  · have : ¬ r.val = q.val := fun e => h (Fin.ext e.symm)
    simp [h, this]

@[simp] theorem State.getReg_setReg_same (s : State) (r : RegIndex) (v : Word) :
    (s.setReg r v).getReg r = v := by simp [State.getReg_setReg]

@[simp] theorem State.getReg_setReg_other (s : State) (r q : RegIndex) (v : Word) (h : q ≠ r) :
    (s.setReg r v).getReg q = s.getReg q := by simp [State.getReg_setReg, h]

/-- Two CPU States with the same registers, pc, mode and flag are the same. -/
theorem State.cpu_ext {s t : State} (hr : ∀ q, t.getReg q = s.getReg q) (hp : t.cpu.pc = s.cpu.pc)
    (hm : t.cpu.mode = s.cpu.mode) (hi : t.cpu.interruptsEnabled = s.cpu.interruptsEnabled) :
    t.cpu = s.cpu := by
  obtain ⟨⟨tr, tp, tm, ti⟩, _, _⟩ := t
  obtain ⟨⟨sr, sp, sm, si⟩, _, _⟩ := s
  have : tr = sr := Vector.ext fun i hi => hr ⟨i, hi⟩
  simp_all

end Sys2Proof.Machine
end

