-- ==== Sys2Proof/Laws/Meanings.lean ====
section
/-! SUPPORT. What the index check and each meaning can answer, said once. -/

namespace Sys2Proof.Machine

/-- The add datapath is addition of bit vectors. -/
theorem add32_eq_add (a b : Word) : add32 a b = a + b := by
  apply BitVec.eq_of_toNat_eq
  simp [add32]

/-- A valid index names the register of its number. -/
theorem resolveReg_eq_some {i : Int} {r : RegIndex} : resolveReg i = some r ↔ (r : Int) = i := by
  unfold resolveReg
  split
  · next h =>
    simp only [Option.some.injEq, Fin.ext_iff]
    have h1 := h.1
    constructor <;> intro e <;> omega
  · next h =>
    simp only [reduceCtorEq, false_iff]
    intro e
    have := r.isLt
    exact h ⟨by omega, by omega⟩

theorem resolveReg_eq_none {i : Int} : resolveReg i = none ↔ ¬ ValidReg i := by
  unfold resolveReg
  split
  · next h => exact ⟨fun e => (Option.some_ne_none _ e).elim, fun e => absurd h e⟩
  · next h => exact ⟨fun _ => h, fun _ => rfl⟩

@[simp] theorem resolveReg_reg (r : RegIndex) : resolveReg (r : Int) = some r :=
  resolveReg_eq_some.mpr rfl

/-- The check lets a register's own number through. -/
@[simp] theorem withReg_reg (r : RegIndex) (k : RegIndex → Answer) : withReg (r : Int) k = k r := by
  simp [withReg]

/-- The check on an invalid index. -/
theorem withReg_invalid {i : Int} (h : ¬ ValidReg i) (k : RegIndex → Answer) :
    withReg i k = .fault .invalidRegisterIndex := by
  simp [withReg, resolveReg_eq_none.mpr h]

/-- What the check can do: go on with the register the index names, or raise InvalidRegisterIndex. -/
theorem withReg_cases (i : Int) (k : RegIndex → Answer) :
    (∃ r : RegIndex, (r : Int) = i ∧ withReg i k = k r) ∨
    (¬ ValidReg i ∧ withReg i k = .fault .invalidRegisterIndex) := by
  cases h : resolveReg i with
  | some r => exact .inl ⟨r, resolveReg_eq_some.mp h, by simp [withReg, h]⟩
  | none => exact .inr ⟨resolveReg_eq_none.mp h, by simp [withReg, h]⟩

/-- If `MOV_IMM` answers a next state, its target is a register and that register holds the immediate. -/
theorem execMovImm_next {rt : Int} {imm : Word} {s t : State} (h : execMovImm rt imm s = .next t) :
    ∃ r : RegIndex, (r : Int) = rt ∧ t = (s.setReg r imm).retire [] := by
  rcases withReg_cases rt fun r => .next ((s.setReg r imm).retire []) with ⟨r, hr, e⟩ | ⟨-, e⟩
  · exact ⟨r, hr, by simpa [execMovImm, e] using h.symm⟩
  · simp [execMovImm, e] at h

/-- If `ADD_REG` answers a next state, both its indices are registers and the target holds the sum. -/
theorem execAddReg_next {rt rs : Int} {s t : State} (h : execAddReg rt rs s = .next t) :
    ∃ r u : RegIndex, (r : Int) = rt ∧ (u : Int) = rs ∧
      t = (s.setReg r (add32 (s.getReg r) (s.getReg u))).retire [] := by
  unfold execAddReg at h
  rcases withReg_cases rt fun r => withReg rs fun u =>
    .next ((s.setReg r (add32 (s.getReg r) (s.getReg u))).retire []) with ⟨r, hr, e⟩ | ⟨-, e⟩
  · rw [e] at h
    rcases withReg_cases rs fun u =>
      .next ((s.setReg r (add32 (s.getReg r) (s.getReg u))).retire []) with ⟨u, hu, e'⟩ | ⟨-, e'⟩
    · exact ⟨r, u, hr, hu, by simpa [e'] using h.symm⟩
    · simp [e'] at h
  · simp [e] at h

/-- If `ADD_IMM` answers a next state, its target is a register and that register holds the sum. -/
theorem execAddImm_next {rt : Int} {imm : Word} {s t : State} (h : execAddImm rt imm s = .next t) :
    ∃ r : RegIndex, (r : Int) = rt ∧ t = (s.setReg r (add32 (s.getReg r) imm)).retire [] := by
  rcases withReg_cases rt fun r => .next ((s.setReg r (add32 (s.getReg r) imm)).retire [])
    with ⟨r, hr, e⟩ | ⟨-, e⟩
  · exact ⟨r, hr, by simpa [execAddImm, e] using h.symm⟩
  · simp [execAddImm, e] at h

/-- What executing an instruction can answer as a next state. -/
theorem exec_next {i : Instr} {s t : State} (h : exec i s = .next t) :
    (∃ r : RegIndex, ∃ v, t = (s.setReg r v).retire []) ∨ t = s.takeTrap ∨ t = s.stop := by
  cases i with
  | movImm rt imm => obtain ⟨r, -, e⟩ := execMovImm_next h; exact .inl ⟨r, _, e⟩
  | addReg rt rs => obtain ⟨r, u, -, -, e⟩ := execAddReg_next h; exact .inl ⟨r, _, e⟩
  | addImm rt imm => obtain ⟨r, -, e⟩ := execAddImm_next h; exact .inl ⟨r, _, e⟩
  | trap => exact .inr (.inl (by simpa [exec, execTrap] using h.symm))
  | halt => exact .inr (.inr (by simpa [exec, execHalt] using h.symm))

end Sys2Proof.Machine
end

