-- ==== Sys2Proof/Laws/Memory.lean ====
section
/-! SUPPORT. The laws of the store: a read after a write, and that every operation keeps the canonical form. -/

namespace Sys2Proof.Machine

/-! ### One byte -/

/-- Below every listed address, a byte reads as an unlisted one. -/
theorem Memory.readByte_of_lt (m : Memory) (a : Nat) (h : ∀ c ∈ m, a < c.1) :
    Memory.readByte m a = unlistedByte a := by
  induction m with
  | nil => rfl
  | cons c m ih =>
    have hc : a < c.1 := h c (by simp)
    simp [Memory.readByte, Nat.ne_of_lt hc, ih fun d hd => h d (by simp [hd])]

/-- A byte no entry is listed for reads as an unlisted one. -/
theorem Memory.readByte_of_unlisted (m : Memory) (a : Nat) (h : ∀ c ∈ m, c.1 ≠ a) :
    Memory.readByte m a = unlistedByte a := by
  induction m with
  | nil => rfl
  | cons c m ih =>
    have hc : a ≠ c.1 := (h c (by simp)).symm
    simp [Memory.readByte, hc, ih fun d hd => h d (by simp [hd])]

/-- A read after a write gives the written byte at its own address and the old byte at every other. -/
theorem Memory.readByte_writeByte (m : Memory) (hm : Memory.wf m) (a b : Nat) (v : Byte) :
    Memory.readByte (Memory.writeByte m a v) b = if b = a then v else Memory.readByte m b := by
  induction m with
  | nil =>
    simp only [Memory.writeByte]
    split
    · next h => by_cases hb : b = a <;> simp [Memory.readByte, hb, h]
    · by_cases hb : b = a <;> simp [Memory.readByte, hb]
  | cons c m ih =>
    obtain ⟨hs, hn⟩ := hm
    obtain ⟨hlt, hs⟩ := List.pairwise_cons.mp hs
    have ih := ih ⟨hs, fun d hd => hn d (by simp [hd])⟩
    have below : a ≤ c.1 → Memory.readByte m a = unlistedByte a := fun h =>
      Memory.readByte_of_lt m a fun d hd => Nat.lt_of_le_of_lt h (hlt d hd)
    simp only [Memory.writeByte]
    by_cases h1 : a < c.1
    · have hne : a ≠ c.1 := Nat.ne_of_lt h1
      by_cases hv : v = unlistedByte a
      · by_cases hb : b = a
        · subst hb; simp [h1, hv, Memory.readByte, hne, below h1.le]
        · simp [h1, hv, hb]
      · by_cases hb : b = a <;> simp [h1, hv, Memory.readByte, hb]
    · by_cases h2 : a = c.1
      · by_cases hv : v = unlistedByte a
        · by_cases hb : b = a
          · subst hb; simpa [hv, ← h2] using below h2.le
          · simp [Memory.readByte, hv, ← h2, hb]
        · by_cases hb : b = a <;> simp [Memory.readByte, hv, ← h2, hb]
      · simp only [h1, h2, if_false, Memory.readByte, ih]
        by_cases hb : b = a
        · simp [hb, h2]
        · simp [hb]

/-- A write lists no address but its own and those already listed. -/
theorem Memory.mem_writeByte {m : Memory} {a : Nat} {v : Byte} {c : Host.Cell}
    (h : c ∈ Memory.writeByte m a v) : c = (a, v) ∧ v ≠ unlistedByte a ∨ c ∈ m := by
  induction m with
  | nil =>
    simp only [Memory.writeByte] at h
    split at h <;> simp_all
  | cons d m ih =>
    simp only [Memory.writeByte] at h
    split at h
    · split at h <;> simp_all
    · split at h
      · split at h <;> simp_all
        tauto
      · rcases List.mem_cons.mp h with h | h
        · simp [h]
        · rcases ih h with h | h
          · exact .inl h
          · simp [h]

/-- A write of one byte keeps the canonical form. -/
theorem Memory.writeByte_wf (m : Memory) (hm : Memory.wf m) (a : Nat) (v : Byte) :
    Memory.wf (Memory.writeByte m a v) := by
  refine ⟨?_, fun c hc => ?_⟩
  · induction m with
    | nil => simp only [Memory.writeByte]; split <;> simp
    | cons c m ih =>
      obtain ⟨hs, hn⟩ := hm
      obtain ⟨hlt, hs'⟩ := List.pairwise_cons.mp hs
      have ih := ih ⟨hs', fun d hd => hn d (by simp [hd])⟩
      simp only [Memory.writeByte]
      split
      · next h =>
        split
        · exact hs
        · refine List.pairwise_cons.mpr ⟨fun d hd => ?_, hs⟩
          rcases List.mem_cons.mp hd with rfl | hd
          · exact h
          · exact Nat.lt_trans h (hlt d hd)
      · next h1 =>
        split
        · next h2 =>
          split
          · exact hs'
          · exact List.pairwise_cons.mpr ⟨fun d hd => h2 ▸ hlt d hd, hs'⟩
        · next h2 =>
          refine List.pairwise_cons.mpr ⟨fun d hd => ?_, ih⟩
          rcases Memory.mem_writeByte hd with ⟨rfl, -⟩ | hd
          · simp only; omega
          · exact hlt d hd
  · rcases Memory.mem_writeByte hc with ⟨rfl, h⟩ | h
    · exact h
    · exact hm.2 c h

/-! ### Several bytes -/

/-- Writing bytes in turn keeps the canonical form. -/
theorem Memory.writeBytes_wf (m : Memory) (hm : Memory.wf m) (a : Nat) (vs : List Byte) :
    Memory.wf (Memory.writeBytes m a vs) := by
  induction vs generalizing m a with
  | nil => exact hm
  | cons v vs ih => exact ih _ (Memory.writeByte_wf m hm a v) _

/-- Writing bytes lists no address but theirs and those already listed. -/
theorem Memory.mem_writeBytes {m : Memory} {a : Nat} {vs : List Byte} {c : Host.Cell}
    (h : c ∈ Memory.writeBytes m a vs) : (a ≤ c.1 ∧ c.1 < a + vs.length) ∨ c ∈ m := by
  induction vs generalizing m a with
  | nil => exact .inr h
  | cons v vs ih =>
    rcases ih h with h | h
    · left; simp only [List.length_cons]; omega
    · rcases Memory.mem_writeByte h with ⟨rfl, -⟩ | h
      · left; simp only [List.length_cons]; omega
      · exact .inr h

/-- A read after writing bytes in turn. -/
theorem Memory.readByte_writeBytes (m : Memory) (hm : Memory.wf m) (a b : Nat) (vs : List Byte) :
    Memory.readByte (Memory.writeBytes m a vs) b =
      if h : a ≤ b ∧ b - a < vs.length then vs[b - a] else Memory.readByte m b := by
  induction vs generalizing m a with
  | nil => simp [Memory.writeBytes]
  | cons v vs ih =>
    rw [Memory.writeBytes, ih _ (Memory.writeByte_wf m hm a v), Memory.readByte_writeByte m hm]
    by_cases h0 : b = a
    · subst h0; simp
    · by_cases h1 : a + 1 ≤ b ∧ b - (a + 1) < vs.length
      · have h2 : a ≤ b ∧ b - a < (v :: vs).length := by simp only [List.length_cons]; omega
        have h3 : b - a = (b - (a + 1)) + 1 := by omega
        simp only [h1, h2, and_self, dite_true]
        simp only [h3, List.getElem_cons_succ]
      · have h2 : ¬ (a ≤ b ∧ b - a < (v :: vs).length) := by simp only [List.length_cons]; omega
        rw [dif_neg h1, dif_neg h2, if_neg h0]

/-! ### Words -/

/-- Joining a word's bytes gives the word back. -/
@[simp] theorem joinBytes_wordByte (w : InstrWord) :
    joinBytes (wordByte w 0) (wordByte w 1) (wordByte w 2) (wordByte w 3)
      (wordByte w 4) (wordByte w 5) (wordByte w 6) (wordByte w 7) = w := by
  simp only [joinBytes, wordByte]
  ext i hi
  simp only [BitVec.getElem_append, BitVec.getElem_extractLsb']
  repeat' split
  all_goals first | (rw [← BitVec.getLsbD_eq_getElem hi]; congr 1; omega)

@[simp] theorem wordBytes_length (w : InstrWord) : (wordBytes w).length = 8 := rfl

theorem wordBytes_getElem (w : InstrWord) (k : Nat) (h : k < (wordBytes w).length) :
    (wordBytes w)[k] = wordByte w k := by
  have : k < 8 := h
  interval_cases k <;> rfl

/-! ### Slots -/

@[simp] theorem InstructionStore.writeSlot_capacity (st : InstructionStore) (i : SlotIndex)
    (w : InstrWord) : (st.writeSlot i w).capacity = st.capacity := rfl

/-- A byte of the store after a slot is written: a byte of the word inside the slot, the old byte
outside it. -/
theorem InstructionStore.readByte_writeSlot (st : InstructionStore) (hm : Memory.wf st.memory)
    (i : SlotIndex) (w : InstrWord) (a : Nat) :
    Memory.readByte (st.writeSlot i w).memory a =
      if a / 8 = i.toNat then wordByte w (a % 8) else Memory.readByte st.memory a := by
  rw [InstructionStore.writeSlot, Memory.readByte_writeBytes _ hm]
  by_cases h : a / 8 = i.toNat
  · have h1 : 8 * i.toNat ≤ a ∧ a - 8 * i.toNat < (wordBytes w).length := by
      rw [wordBytes_length]; omega
    have h2 : a - 8 * i.toNat = a % 8 := by omega
    rw [dif_pos h1, if_pos h, wordBytes_getElem, h2]
  · have h1 : ¬ (8 * i.toNat ≤ a ∧ a - 8 * i.toNat < (wordBytes w).length) := by
      rw [wordBytes_length]; omega
    rw [dif_neg h1, if_neg h]

/-- A slot's word after a slot is written: the written word in its own slot, the old word in every
other. -/
theorem InstructionStore.slotWord_writeSlot (st : InstructionStore) (hm : Memory.wf st.memory)
    (i j : SlotIndex) (w : InstrWord) :
    (st.writeSlot i w).slotWord j = if j = i then w else st.slotWord j := by
  have hk : ∀ k < 8, Memory.readByte (st.writeSlot i w).memory (8 * j.toNat + k) =
      if j = i then wordByte w k else Memory.readByte st.memory (8 * j.toNat + k) := by
    intro k hk
    rw [InstructionStore.readByte_writeSlot st hm]
    have h1 : (8 * j.toNat + k) / 8 = j.toNat := by omega
    have h2 : (8 * j.toNat + k) % 8 = k := by omega
    simp only [h1, h2, BitVec.toNat_inj]
  have h0 := hk 0 (by omega)
  rw [Nat.add_zero] at h0
  simp only [InstructionStore.slotWord, h0, hk 1 (by omega), hk 2 (by omega), hk 3 (by omega),
    hk 4 (by omega), hk 5 (by omega), hk 6 (by omega), hk 7 (by omega)]
  split
  · exact joinBytes_wordByte w
  · rfl

/-- Writing a slot below the capacity keeps the store's form. -/
theorem InstructionStore.writeSlot_wf (st : InstructionStore) (h : st.wf) (i : SlotIndex)
    (hi : i < st.capacity) (w : InstrWord) : (st.writeSlot i w).wf := by
  refine ⟨Memory.writeBytes_wf _ h.1 _ _, fun c hc => ?_⟩
  have : i.toNat < st.capacity.toNat := hi
  rcases Memory.mem_writeBytes hc with h' | h'
  · rw [wordBytes_length] at h'; simp only [InstructionStore.writeSlot_capacity]; omega
  · exact h.2 c h'

/-- Construct-empty gives a store in canonical form. -/
theorem InstructionStore.constructEmpty_wf (cap : SlotIndex) :
    (InstructionStore.constructEmpty cap).wf := by
  simp [InstructionStore.constructEmpty, InstructionStore.wf, Memory.wf]

/-- The store at reset is in canonical form. -/
theorem State.reset_store_wf : State.reset.store.wf := by
  simp [State.reset, InstructionStore.wf, Memory.wf]

/-- What `populate` can answer: the store with the slot written and accepted, or the store as it was and
refused. -/
theorem InstructionStore.populate_cases (st : InstructionStore) (i : SlotIndex) (w : InstrWord) :
    (i < st.capacity ∧ st.populate i w = ⟨st.writeSlot i w, true⟩) ∨
    (¬ i < st.capacity ∧ st.populate i w = ⟨st, false⟩) := by
  unfold InstructionStore.populate
  split
  · next h => exact .inl ⟨h, rfl⟩
  · next h => exact .inr ⟨h, rfl⟩

/-- `populate` keeps the store's form, whatever it is asked. -/
theorem InstructionStore.populate_wf (st : InstructionStore) (h : st.wf) (i : SlotIndex)
    (w : InstrWord) : (st.populate i w).store.wf := by
  unfold InstructionStore.populate
  split
  · next hi => exact InstructionStore.writeSlot_wf st h i hi w
  · exact h

@[simp] theorem InstructionStore.populate_capacity (st : InstructionStore) (i : SlotIndex)
    (w : InstrWord) : (st.populate i w).store.capacity = st.capacity := by
  unfold InstructionStore.populate; split <;> rfl

/-- A slot in which nothing is listed holds the empty slot's word. -/
theorem InstructionStore.slotWord_of_unlisted (st : InstructionStore) (i : SlotIndex)
    (h : ∀ c ∈ st.memory, c.1 / 8 ≠ i.toNat) : st.slotWord i = emptySlotWord := by
  have hk : ∀ k < 8, Memory.readByte st.memory (8 * i.toNat + k) = wordByte emptySlotWord k := by
    intro k hk
    rw [Memory.readByte_of_unlisted _ _ fun c hc e => h c hc (by omega), unlistedByte]
    congr 1; omega
  have h0 := hk 0 (by omega)
  rw [Nat.add_zero] at h0
  simp only [InstructionStore.slotWord, h0, hk 1 (by omega), hk 2 (by omega), hk 3 (by omega),
    hk 4 (by omega), hk 5 (by omega), hk 6 (by omega), hk 7 (by omega)]
  exact joinBytes_wordByte emptySlotWord

/-- The fetch: the slot's word below the capacity, nothing from the capacity on. -/
theorem InstructionStore.iFetch_eq_some {st : InstructionStore} {i : SlotIndex} {w : InstrWord} :
    st.iFetch i = some w ↔ i < st.capacity ∧ st.slotWord i = w := by
  unfold InstructionStore.iFetch; split <;> simp_all

theorem InstructionStore.iFetch_eq_none {st : InstructionStore} {i : SlotIndex} :
    st.iFetch i = none ↔ ¬ i < st.capacity := by
  unfold InstructionStore.iFetch; split <;> simp_all

end Sys2Proof.Machine
end

