-- ==== Sys2Proof/Laws/MultiEngine.lean ====
section
/-! SUPPORT. What the operations over a system of engines do, said once. -/

namespace Sys2Proof.Machine

@[simp] theorem Engine.ofState_cpu (s : State) : (Engine.ofState s).cpu = s.cpu := rfl
@[simp] theorem Engine.ofState_report (s : State) : (Engine.ofState s).report = s.report := rfl

@[simp] theorem EngineSystem.machine_cpu (y : EngineSystem) (e : Engine) :
    (y.machine e).cpu = e.cpu := rfl
@[simp] theorem EngineSystem.machine_store (y : EngineSystem) (e : Engine) :
    (y.machine e).store = y.store := rfl
@[simp] theorem EngineSystem.machine_report (y : EngineSystem) (e : Engine) :
    (y.machine e).report = e.report := rfl

@[simp] theorem EngineSystem.put_store (y : EngineSystem) (k : Fin y.engines.length) (s : State) :
    (y.put k s).store = y.store := rfl

@[simp] theorem EngineSystem.put_length (y : EngineSystem) (k : Fin y.engines.length) (s : State) :
    (y.put k s).engines.length = y.engines.length := by simp [EngineSystem.put]

/-- The engines after one is put: that one at its own place, the old ones at every other. -/
theorem EngineSystem.getElem?_put (y : EngineSystem) (k : Fin y.engines.length) (s : State)
    (j : Nat) :
    (y.put k s).engines[j]? = if j = k.val then some (Engine.ofState s) else y.engines[j]? := by
  by_cases h : j = k.val
  · subst h; simp [EngineSystem.put]
  · simp [EngineSystem.put, h, List.getElem?_set_ne (Ne.symm h)]

@[simp] theorem EngineSystem.boot_store (n : Nat) (st : InstructionStore) :
    (EngineSystem.boot n st).store = st := rfl

/-- What a step of an engine can answer: the engine's own machine stepped and was put back, or it failed
as that machine does. -/
theorem EngineSystem.stepEngine_cases (y : EngineSystem) (k : Fin y.engines.length) :
    (∃ t, step (y.machine y.engines[k]) = .next t ∧ y.stepEngine k = .next (y.put k t)) ∨
    (∃ f, step (y.machine y.engines[k]) = .fault f ∧ y.stepEngine k = .fault f) ∨
    (∃ r, step (y.machine y.engines[k]) = .refused r ∧ y.stepEngine k = .refused r) := by
  unfold EngineSystem.stepEngine
  split
  · next t h => exact .inl ⟨t, h, rfl⟩
  · next f h => exact .inr (.inl ⟨f, h, rfl⟩)
  · next r h => exact .inr (.inr ⟨r, h, rfl⟩)

end Sys2Proof.Machine
end

