-- ==== Sys2Proof/Laws/PerInstr.lean ====
section
/-! SUPPORT. Statements made of every instruction, one lemma per constructor. -/

namespace Sys2Proof.Laws

/-- The canonical word of an instruction is never illegal: its opcode field is in 0..4 (R84, R91). -/
def EncodedOpcodeLegal.Statement (i : Instr) : Prop := (opField (encode i)).toNat ≤ 4

theorem EncodedOpcodeLegal.movImm (rt : Int) (imm : Word) :
    EncodedOpcodeLegal.Statement (.movImm rt imm) := by
  simp [EncodedOpcodeLegal.Statement, encode]

theorem EncodedOpcodeLegal.addReg (rt rs : Int) :
    EncodedOpcodeLegal.Statement (.addReg rt rs) := by
  simp [EncodedOpcodeLegal.Statement, encode]

theorem EncodedOpcodeLegal.addImm (rt : Int) (imm : Word) :
    EncodedOpcodeLegal.Statement (.addImm rt imm) := by
  simp [EncodedOpcodeLegal.Statement, encode]

theorem EncodedOpcodeLegal.trap : EncodedOpcodeLegal.Statement .trap := by
  simp [EncodedOpcodeLegal.Statement, encode]

theorem EncodedOpcodeLegal.halt : EncodedOpcodeLegal.Statement .halt := by
  simp [EncodedOpcodeLegal.Statement, encode]

end Sys2Proof.Laws
end

