-- ==== Sys2Proof/Laws/Step.lean ====
section
/-! SUPPORT. What a step and a driver's loop can do, said once. -/

namespace Sys2Proof.Machine

/-- If a step answers a next state, a slot below the capacity was fetched and its word decoded to the
instruction that was executed. -/
theorem step_next {s t : State} (h : step s = .next t) :
    ∃ i, s.cpu.pc < s.store.capacity ∧ decodeWord (s.store.slotWord s.cpu.pc) = .instr i ∧
      exec i s = .next t := by
  unfold step at h
  split at h
  · simp at h
  · next w hw =>
    obtain ⟨hp, rfl⟩ := InstructionStore.iFetch_eq_some.mp hw
    split at h
    · simp at h
    · next i hi => exact ⟨i, hp, hi, h⟩

/-- The step where the fetched word decodes to an instruction. -/
theorem step_of_instr {s : State} {i : Instr} (h : s.cpu.pc < s.store.capacity)
    (hd : decodeWord (s.store.slotWord s.cpu.pc) = .instr i) : step s = exec i s := by
  unfold step
  rw [InstructionStore.iFetch_eq_some.mpr ⟨h, rfl⟩]
  simp only [hd]

/-- The step where the fetched word spells no instruction. -/
theorem step_of_illegal {s : State} (h : s.cpu.pc < s.store.capacity)
    (hd : decodeWord (s.store.slotWord s.cpu.pc) = .illegal) : step s = .fault .unknownOpcode := by
  unfold step
  rw [InstructionStore.iFetch_eq_some.mpr ⟨h, rfl⟩]
  simp only [hd]

/-- The step where the program counter has reached the capacity. -/
theorem step_of_not_lt {s : State} (h : ¬ s.cpu.pc < s.store.capacity) :
    step s = .fault .outOfBoundsFetch := by
  simp [step, InstructionStore.iFetch, h]

/-- The outputs of a step that answers a next state. -/
theorem stepResult_next {s t : State} (h : step s = .next t) :
    stepResult s = ⟨t.cpu, t.report.signal.outcome, t.report.events⟩ := by
  simp [stepResult, h]

/-- The outputs of a step that fails. -/
theorem stepResult_fault {s : State} {f : Fault} (h : step s = .fault f) :
    stepResult s = ⟨s.cpu, .fault f, []⟩ := by
  simp [stepResult, h]

/-- The machine after a step request: the next state, or the state as it was. -/
theorem State.afterStep_cases (s : State) :
    (∃ t, step s = .next t ∧ s.afterStep = t) ∨ s.afterStep = s := by
  unfold State.afterStep
  split
  · next t h => exact .inl ⟨t, h, rfl⟩
  · exact .inr rfl
  · exact .inr rfl

/-- One turn of the driver's loop after a step that returns Continue. -/
theorem drive_continued {n : Nat} {s t : State} (h : step s = .next t)
    (hc : t.report.signal = .continued) : drive (n + 1) s = (drive n t).after t.report.events := by
  simp [drive, h, hc]

/-- The last turn of the driver's loop after a step that returns Stop. -/
theorem drive_stopped {n : Nat} {s t : State} (h : step s = .next t)
    (hc : t.report.signal = .stopped) : drive (n + 1) s = ⟨t, .stopped, t.report.events, 1⟩ := by
  simp [drive, h, hc]

/-- The last turn of the driver's loop after a fault. -/
theorem drive_fault {n : Nat} {s : State} {f : Fault} (h : step s = .fault f) :
    drive (n + 1) s = ⟨s, .faulted f, [], 1⟩ := by
  simp [drive, h]

end Sys2Proof.Machine
end

