-- ==== Sys2Proof/Tests/Slice0.lean ====
section
/-! SUPPORT. Tests of the model on the spec's own vectors (95_test_vectors.md), and for each statement with hypotheses a state that meets them. -/

namespace Sys2Proof.Tests

open Sys2Proof.Machine

/-! ### Ill-formed records are refused (R91) -/

theorem test_wellFormed_target_range :
    (Instr.movImm (-1) 0).wellFormed = false ∧ (Instr.movImm 0 0).wellFormed = true ∧
    (Instr.movImm 65535 0).wellFormed = true ∧ (Instr.movImm 65536 0).wellFormed = false ∧
    (Instr.addImm (-1) 0).wellFormed = false ∧ (Instr.addImm 65536 0).wellFormed = false ∧
    (Instr.addReg (-1) 0).wellFormed = false ∧ (Instr.addReg 65536 0).wellFormed = false := by
  decide

theorem test_wellFormed_operand_range :
    (Instr.addReg 0 (-2147483649)).wellFormed = false ∧
    (Instr.addReg 0 (-2147483648)).wellFormed = true ∧
    (Instr.addReg 0 2147483647).wellFormed = true ∧
    (Instr.addReg 0 2147483648).wellFormed = false := by
  decide

/-! ### Words written out from the encodings of R83 and R84 (V31 to V38) -/

/-- `0000000000000000 ++ 8 ++ 1` in binary: V38. -/
theorem test_decode_movImm :
    decodeWord 0b0000000000000000000000000000100000000000000000000000000000000001#64 =
      .instr (.movImm 8 1) := by decide

/-- `0000000000000001 ++ 1 ++ -1` in binary: V33. -/
theorem test_decode_addReg :
    decodeWord 0b0000000000000001000000000000000111111111111111111111111111111111#64 =
      .instr (.addReg 1 (-1)) := by decide

/-- `0000000000000010 ++ 1 ++ -4` in binary: V34. -/
theorem test_decode_addImm :
    decodeWord 0b0000000000000010000000000000000111111111111111111111111111111100#64 =
      .instr (.addImm 1 (-4)) := by decide

/-- V35: the 48 unused bits are ignored. -/
theorem test_decode_trap :
    decodeWord 0b0000000000000011111111111111111111111111111111111111111111111111#64 =
      .instr .trap := by decide

/-- V36 and V28. -/
theorem test_decode_halt :
    decodeWord 0b0000000000000100000000000000000000000000000000000000000000000000#64 = .instr .halt ∧
    decodeWord 0x0004000900000008#64 = .instr .halt := by decide

/-- V37, and the all-ones word of R90. -/
theorem test_decode_illegal :
    decodeWord 0x0005000000000000#64 = .illegal ∧
    decodeWord 0xFFFFFFFFFFFFFFFF#64 = .illegal := by decide

/-- Over bytes: rejected by name, and the bytes after a slot are left. -/
theorem test_decode_bytes :
    decode [0x0A, 0, 0, 0, 0, 0, 0, 0, 0x77] = .ok (.movImm 0 10, [0x77]) ∧
    decode [0, 0, 0, 0, 0, 0, 5, 0] = .error .illegalOpcode ∧
    decode [0, 0, 0] = .error .truncated := by decide

/-! ### Steps -/

/-- A machine of the reference capacity with these registers, `pc` and mode, and one word at `pc`. -/
def machineWith (regs : RegFile) (pc : SlotIndex) (mode : Mode) (w : InstrWord) : State where
  cpu := ⟨regs, pc, mode, false⟩
  store := ((InstructionStore.constructEmpty 1024).populate pc w).store
  report := ⟨.continued, []⟩

/-- V2. -/
theorem test_movImm_overwrites :
    let r := stepResult (machineWith #v[0, 0, 0, 0, 0, 0, 0, 0x12345678] 5 .user 0x0000000780000000#64)
    r.cpu.regs[7] = 0x80000000 ∧ r.cpu.pc = 6 ∧ r.outcome = .continued := by decide

/-- V6. -/
theorem test_movImm_bad_target :
    stepResult (machineWith #v[1, 2, 3, 4, 5, 6, 7, 8] 2 .user 0x0000FFFF00000000#64) =
      ⟨⟨#v[1, 2, 3, 4, 5, 6, 7, 8], 2, .user, false⟩, .fault .invalidRegisterIndex, []⟩ := by decide

/-- V8: the same register twice, wrapping. -/
theorem test_addReg_doubles :
    let r := stepResult (machineWith #v[0, 0, 0, 0x80000000, 0, 0, 0, 0] 0 .user 0x0001000300000003#64)
    r.cpu.regs[3] = 0 ∧ r.cpu.pc = 1 ∧ r.outcome = .continued := by decide

/-- V14: the least index. -/
theorem test_addReg_bad_source :
    stepResult (machineWith #v[9, 0, 0, 0, 0, 0, 0, 0] 0 .user 0x0001000080000000#64) =
      ⟨⟨#v[9, 0, 0, 0, 0, 0, 0, 0], 0, .user, false⟩, .fault .invalidRegisterIndex, []⟩ := by decide

/-- V16a: a wrap downward. -/
theorem test_addImm_wraps :
    let r := stepResult (machineWith #v[0, 0, 0, 0, 0, 0x80000000, 0, 0] 0 .user 0x00020005FFFFFFFF#64)
    r.cpu.regs[5] = 0x7FFFFFFF ∧ r.cpu.pc = 1 ∧ r.outcome = .continued := by decide

/-- V19: the last slot; reaching the capacity is not a fault. -/
theorem test_addImm_last_slot :
    let r := stepResult (machineWith #v[0, 0, 0, 0, 0, 0, 0, 0] 1023 .user 0x0002000000000001#64)
    r.cpu.regs[0] = 1 ∧ r.cpu.pc = 1024 ∧ r.outcome = .continued := by decide

/-- V24 and V26. -/
theorem test_trap_sets_kernel :
    let r := stepResult (machineWith #v[15, 0, 0, 0, 0, 0, 0, 0] 2 .user 0x0003FFFFFFFFFFFF#64)
    r.cpu.mode = .kernel ∧ r.cpu.pc = 3 ∧ r.events = [.trapRaised] := by decide

/-- V25: in KERNEL mode the mode stays and the event comes again. -/
theorem test_trap_in_kernel :
    let r := stepResult (machineWith #v[0, 0, 0, 0, 0, 0, 0, 0] 4 .kernel 0x0003000000000000#64)
    r.cpu.mode = .kernel ∧ r.cpu.pc = 5 ∧ r.events = [.trapRaised] := by decide

/-- V27. -/
theorem test_halt_stays :
    stepResult (machineWith #v[15, 0, 0, 0, 0, 0, 0, 0] 3 .kernel 0x0004000000000000#64) =
      ⟨⟨#v[15, 0, 0, 0, 0, 0, 0, 0], 3, .kernel, false⟩, .stopped, [.haltReached]⟩ := by decide

/-- V23: a slot never populated. -/
theorem test_halt_empty_slot :
    (stepResult { machineWith (Vector.replicate 8 0) 6 .user 0 with
      cpu := ⟨Vector.replicate 8 0, 7, .user, false⟩ }).outcome = .stopped := by decide

/-- V17 and V18. -/
theorem test_fetch_past_capacity :
    (stepResult (machineWith (Vector.replicate 8 0) 1024 .user 0)).outcome =
      .fault .outOfBoundsFetch ∧
    (stepResult (machineWith (Vector.replicate 8 0) 4294967295 .user 0)).outcome =
      .fault .outOfBoundsFetch := by decide

/-- V21: an illegal opcode counts before a bad register field. -/
theorem test_illegal_before_index :
    (stepResult (machineWith (Vector.replicate 8 0) 1 .user 0x00050009FFFFFFFF#64)).outcome =
      .fault .unknownOpcode := by decide

/-- V39: a reset of the CPU. -/
theorem test_reset_cpu :
    let s := machineWith #v[15, 0, 0, 0, 0, 0, 0, 0] 3 .kernel 0x0003000000000000#64
    s.resetCpu.cpu.regs[0] = 0 ∧ s.resetCpu.cpu.pc = 0 ∧ s.resetCpu.cpu.mode = .user ∧
    s.resetCpu.store = s.store := by decide

/-- V40, V41, V42. -/
theorem test_populate :
    (InstructionStore.constructEmpty 1024).slotWord 1023 = 0x0004000000000000#64 ∧
    ((InstructionStore.constructEmpty 1024).populate 1023 7#64).ok = true ∧
    ((InstructionStore.constructEmpty 1024).populate 1023 7#64).store.iFetch 1023 = some 7#64 ∧
    (InstructionStore.constructEmpty 1024).populate 1024 7#64 =
      ⟨InstructionStore.constructEmpty 1024, false⟩ := by decide

/-- Populating a slot with the HALT word leaves nothing listed: equal stores are equal data (log 3). -/
theorem test_populate_canonical :
    (((InstructionStore.constructEmpty 1024).populate 3 7#64).store.populate 3
      0x0004000000000000#64).store = InstructionStore.constructEmpty 1024 := by decide

/-- The lines of the scenario S1 and the forms R93 shows. -/
theorem test_assembler :
    assembleLine "MOV_IMM(R0,10)".toList = some (.movImm 0 10) ∧
    assembleLine "ADD_IMM(R0,5)".toList = some (.addImm 0 5) ∧
    assembleLine "TRAP".toList = some .trap ∧ assembleLine "HALT".toList = some .halt ∧
    assembleLine "ADD_REG(R1, 8)".toList = some (.addReg 1 8) ∧
    assembleLine "ADD_REG(R1, -1)".toList = some (.addReg 1 (-1)) ∧
    assembleLine "ADD_IMM(R1,0xFFFFFFFC)".toList = some (.addImm 1 (-4)) := by decide

theorem test_assembler_refuses :
    assembleLine "MOV_IMM(R8,0)".toList = none ∧ assembleLine "ADD_REG(R1,3)".toList = none ∧
    assembleLine "MOV_IMM(R0,2147483648)".toList = none ∧
    assembleLine "MOV_IMM(R0,0x123456789)".toList = none ∧ assembleLine "NOP".toList = none := by
  decide

/-- The table's words, and the first instruction after reset. -/
theorem test_table_word :
    decodeTableWord 64 0x0001000100000002 = some (.addReg 1 2) ∧
    decodeTableWord 64 0x0005000000000000 = none ∧
    (stepResult (State.reset.withFetchWord 64 0x000000070000000A)).cpu.regs[7] = 10 := by decide

/-! ### The hypotheses of the statements are met -/

theorem witness_movImm_bad_index :
    ¬ ValidReg 8 ∧ ¬ ValidReg (-1) ∧
    (machineWith (Vector.replicate 8 0) 0 .user 0x0000000800000001#64).store.iFetch 0 =
      some (0x0000#16 ++ 8#16 ++ 1#32) ∧ 8 ≤ (8#16).toNat := by decide

theorem witness_addReg_bad_index :
    (¬ ValidReg 8 ∨ ¬ ValidReg 0) ∧ (¬ ValidReg 7 ∨ ¬ ValidReg (-1)) ∧
    (machineWith (Vector.replicate 8 0) 0 .user 0x0001000000000008#64).store.iFetch 0 =
      some (0x0001#16 ++ 0#16 ++ 8#32) ∧ 8 ≤ (8#32).toInt ∧
    (machineWith (Vector.replicate 8 0) 0 .user 0x00010007FFFFFFFF#64).store.iFetch 0 =
      some (0x0001#16 ++ 7#16 ++ 0xFFFFFFFF#32) ∧ (0xFFFFFFFF#32).toInt < 0 := by decide

theorem witness_addImm_bad_index :
    ¬ ValidReg 9 ∧
    (machineWith (Vector.replicate 8 0) 0 .user 0x0002000800000001#64).store.iFetch 0 =
      some (0x0002#16 ++ 8#16 ++ 1#32) ∧ 8 ≤ (8#16).toNat := by decide

/-- AddsAccumulateTheirAddends: addends to R0, none of them R0. -/
theorem witness_addends :
    ∀ u, Addend.reg u ∈ [Addend.imm 5, Addend.reg 1, Addend.reg 7] → u ≠ 0 := by decide

/-- StepFollowsTheAlgorithm, fetch clauses: `pc` at the capacity and one below it. -/
theorem witness_pc_at_boundary :
    (1024 : SlotIndex) ≤ (machineWith (Vector.replicate 8 0) 1024 .user 0).cpu.pc ∧
    (machineWith (Vector.replicate 8 0) 1023 .user 0).cpu.pc < (1024 : SlotIndex) := by decide

/-- StepFollowsTheAlgorithm, dispatch clauses: a fetched word for each, at the ends of the ranges. -/
theorem witness_algorithm_clauses :
    (opNat 0x00000007FFFFFFFF#64 = 0 ∧ ((7 : RegIndex).val = rtNat 0x00000007FFFFFFFF#64)) ∧
    (opNat 0x0000000800000000#64 = 0 ∧ 8 ≤ rtNat 0x0000000800000000#64) ∧
    (opNat 0x0001000700000007#64 = 1 ∧ ((7 : RegIndex).val = rtNat 0x0001000700000007#64) ∧
      ((7 : RegIndex).val = opndNat 0x0001000700000007#64)) ∧
    (opNat 0x0001000800000000#64 = 1 ∧ 8 ≤ rtNat 0x0001000800000000#64) ∧
    (opNat 0x0001000000000008#64 = 1 ∧ 8 ≤ opndNat 0x0001000000000008#64) ∧
    (opNat 0x0002000000000000#64 = 2 ∧ ((0 : RegIndex).val = rtNat 0x0002000000000000#64)) ∧
    (opNat 0x0002000800000000#64 = 2 ∧ 8 ≤ rtNat 0x0002000800000000#64) ∧
    opNat 0x0003FFFFFFFFFFFF#64 = 3 ∧ opNat 0x0004FFFFFFFFFFFF#64 = 4 ∧
    5 ≤ opNat 0x0005000000000000#64 := by decide

theorem witness_step_runs_decoded :
    let s := machineWith (Vector.replicate 8 0) 1023 .user 0x0001000100000002#64
    s.cpu.pc < s.store.capacity ∧ decode (s.store.slotBytes s.cpu.pc) = .ok (.addReg 1 2, []) := by
  decide

/-- ProgramCounterAdvancesByOneOrStays: a step of each outcome. -/
theorem witness_outcomes :
    (stepResult (machineWith (Vector.replicate 8 0) 1023 .user 0)).outcome = .continued ∧
    (stepResult (machineWith (Vector.replicate 8 0) 0 .user 0x0004000000000000#64)).outcome =
      .stopped ∧
    (stepResult (machineWith (Vector.replicate 8 0) 1024 .user 0)).outcome =
      .fault .outOfBoundsFetch := by decide

/-- StoppedStepRepeats. -/
theorem witness_stopped_step :
    ∃ t, step (machineWith (Vector.replicate 8 0) 0 .user 0x0004000000000000#64) = .next t ∧
      t.report.signal = .stopped := ⟨_, rfl, rfl⟩

/-- OnlyTheTargetRegisterChanges. -/
theorem witness_register_changes :
    ∃ t, step (machineWith (Vector.replicate 8 0) 0 .user 0x000000070000000A#64) = .next t ∧
      t.getReg 7 ≠ (machineWith (Vector.replicate 8 0) 0 .user 0x000000070000000A#64).getReg 7 :=
  ⟨_, rfl, by decide⟩

/-- KernelIsASink, ModePlaysNoPart, InterruptsEnabledIsInert, StepNeverWritesTheStore: a step that answers a
next state and one that fails. -/
theorem witness_next_and_fault :
    (∃ t, step (machineWith (Vector.replicate 8 0) 0 .user 0x0003000000000000#64) = .next t) ∧
    step (machineWith (Vector.replicate 8 0) 0 .user 0x0005000000000000#64) =
      .fault .unknownOpcode := ⟨⟨_, rfl⟩, rfl⟩

/-- StepResultIsDetermined: two stores that agree on the fetched slot and differ elsewhere. -/
theorem witness_determined :
    let s := machineWith (Vector.replicate 8 0) 0 .user 0x000000070000000A#64
    let t := { s with store := (s.store.populate 1 7#64).store }
    s.cpu = t.cpu ∧ s.store.capacity = t.store.capacity ∧ s.store ≠ t.store ∧
    s.store.slotWord s.cpu.pc = t.store.slotWord t.cpu.pc := by decide

/-- StepKeepsTheInvariant and RunsKeepTheStoreAndTheFlag: the invariant with a populated last slot. -/
theorem witness_invariant :
    (machineWith (Vector.replicate 8 0) 1023 .user 0x0002000000000001#64).Inv ∧
    SafeStep (machineWith (Vector.replicate 8 0) 1023 .user 0x0002000000000001#64) :=
  ⟨by decide, _, rfl⟩

/-- DecodeAndEncodeAgree: records at the ends of the ranges, and legal words of both kinds. -/
theorem witness_encoding :
    (Instr.addReg 65535 (-2147483648)).wellFormed = true ∧ (Instr.movImm 0 0).wellFormed = true ∧
    ((-2147483648 : Int) ≤ 2147483647 ∧ (2147483647 : Int) < 2147483648) ∧
    decodeWord 0x0002FFFF80000000#64 = .instr (.addImm 65535 0x80000000) ∧
    opNat 0x0002FFFF80000000#64 ≤ 2 ∧
    decodeWord 0x0003000000000001#64 = .instr .trap ∧ 3 ≤ opNat 0x0003000000000001#64 := by decide

/-- LoadedWordRunsNext: the state after reset. -/
theorem witness_loaded_word :
    Memory.wf State.reset.store.memory ∧ State.reset.cpu.pc < State.reset.store.capacity ∧
    decodeTableWord 64 0x0003000000000000 = some .trap := by decide

/-- NeverPopulatedSlotHalts: the last slot empty, another one populated. -/
theorem witness_never_populated :
    let s := { machineWith (Vector.replicate 8 0) 0 .user 7 with
      cpu := ⟨Vector.replicate 8 0, 1023, .user, false⟩ }
    s.cpu.pc < s.store.capacity ∧ s.store.memory ≠ [] ∧
    ∀ c ∈ s.store.memory, c.1 / 8 ≠ s.cpu.pc.toNat := by decide

/-- PopulateSetsOneSlot: the last slot and the first index past it. -/
theorem witness_populate :
    let st := ((InstructionStore.constructEmpty 1024).populate 1023 7#64).store
    st.wf ∧ st.memory ≠ [] ∧ (1023 : SlotIndex) < st.capacity ∧ (0 : SlotIndex) ≠ 1023 ∧
    st.capacity ≤ (1024 : SlotIndex) := by decide

/-- CanonicalMemoriesAreEqualData: a memory with entries in canonical form. -/
theorem witness_canonical :
    Memory.wf [(0, 1#8), (6, 0#8)] ∧
    ∀ a, Memory.readByte [(0, 1#8), (6, 0#8)] a = Memory.readByte [(0, 1#8), (6, 0#8)] a :=
  ⟨by decide, fun _ => rfl⟩

/-- EveryRunEnds and RunsKeepTheStoreAndTheFlag: a reset CPU on a store of 1024 slots. -/
theorem witness_reset_run :
    State.reset.cpu = CpuState.reset ∧ State.reset.store.capacity = 1024 := ⟨rfl, rfl⟩

/-- EndOfARunIsWhereItStands: a run that stops and one that goes wrong. -/
theorem witness_run_ends :
    (drive 2 (machineWith (Vector.replicate 8 0) 0 .user 0x0003000000000000#64)).ending =
      .stopped ∧
    (drive 1 (machineWith (Vector.replicate 8 0) 1024 .user 0)).ending =
      .faulted .outOfBoundsFetch := by decide

/-- KernelExactlyAfterATrap: both modes, and a run that emits TrapRaised. -/
theorem witness_modes :
    (machineWith (Vector.replicate 8 0) 0 .user 0x0003000000000000#64).cpu.mode = .user ∧
    (machineWith (Vector.replicate 8 0) 0 .kernel 0).cpu.mode = .kernel ∧
    Event.trapRaised ∈
      (drive 2 (machineWith (Vector.replicate 8 0) 0 .user 0x0003000000000000#64)).events := by
  decide

/-- NoStoreWriteDuringAnExecution: a step accepted during an execution, a load accepted before one. -/
theorem witness_session :
    (∃ a y, Session.move .step ⟨machineWith (Vector.replicate 8 0) 0 .user 0, .executing⟩ =
      some (a, y)) ∧
    (∃ a y, Session.move (.load 0 7) Session.boot = some (a, y)) ∧
    Session.move (.load 0 7) ⟨machineWith (Vector.replicate 8 0) 0 .user 0, .executing⟩ = none ∧
    Session.boot.machine.store.wf := ⟨⟨_, _, rfl⟩, ⟨_, _, rfl⟩, rfl, by decide⟩

/-- EnginesDoNotInteract: two engines on one store, the first of which steps on, and two systems that agree
on an engine and the store. -/
theorem witness_engines :
    let e : Engine := ⟨⟨Vector.replicate 8 0, 0, .user, false⟩, ⟨.continued, []⟩⟩
    let f : Engine := ⟨⟨Vector.replicate 8 0, 1024, .user, false⟩, ⟨.continued, []⟩⟩
    let st := ((InstructionStore.constructEmpty 1024).populate 0 0x000000070000000A#64).store
    (∃ y', EngineSystem.stepEngine ⟨[e, f], st⟩ (0 : Fin 2) = .next y') ∧
    EngineSystem.stepEngine ⟨[e, f], st⟩ (1 : Fin 2) = .fault .outOfBoundsFetch ∧
    ([e, f] : List Engine)[0].cpu = ([f, e] : List Engine)[1].cpu := ⟨⟨_, rfl⟩, rfl, rfl⟩

/-- EachEngineStartsFromItsOwnReset: the last of two engines on a store whose first slot is populated, and
on a store of no slots. -/
theorem witness_engines_at_reset :
    let st := ((InstructionStore.constructEmpty 1024).populate 0 0x000000070000000A#64).store
    (EngineSystem.boot 2 st).engines.length = 2 ∧
    (∃ t, step { State.reset with store := st } = .next t) ∧
    step { State.reset with store := InstructionStore.constructEmpty 0 } =
      .fault .outOfBoundsFetch := ⟨rfl, ⟨_, rfl⟩, rfl⟩

/-- R210: a reset of the second of two engines leaves the first where it stands. -/
theorem test_reset_one_engine :
    let e : Engine := ⟨⟨Vector.replicate 8 9, 3, .kernel, false⟩, ⟨.continued, []⟩⟩
    let y := EngineSystem.resetEngine ⟨[e, e], InstructionStore.constructEmpty 1024⟩ (1 : Fin 2)
    y.engines[0]?.map (fun x => x.cpu.pc) = some 3 ∧
    y.engines[1]?.map (fun x => (x.cpu.pc, x.cpu.mode)) = some (0, .user) := by decide

/-- AssemblerReadsItsNotation. -/
theorem witness_assembler : (Instr.addReg 1 (-1)).wellFormed = true := by decide

end Sys2Proof.Tests
end

section
/-! SUPPORT. The proofs of the statements about the state (10_state.md): first what a step can answer, by
the fetched word, and what that leaves of each field; then one theorem per statement. -/

namespace Sys2Proof.Machine

/-! ### The fields of a word as numbers -/

theorem opField_toNat (w : InstrWord) : (opField w).toNat = opNat w := by
  have := w.isLt
  simp only [opField, opNat, BitVec.extractLsb'_toNat, Nat.shiftRight_eq_div_pow]
  omega

theorem rtField_toNat (w : InstrWord) : (rtField w).toNat = rtNat w := by
  simp [rtField, rtNat, BitVec.extractLsb'_toNat, Nat.shiftRight_eq_div_pow]

/-- The register that the decoder's target index names has the number `rtNat` reads off the word. -/
theorem rtNat_of_targetIndex {w : InstrWord} {r : RegIndex}
    (h : (r : Int) = targetIndex (rtField w)) : rtNat w = r.val := by
  rw [targetIndex, rtField_toNat] at h
  omega

/-! ### What a step can answer -/

/-- If a step answers a next state, a slot below the capacity was fetched, and the opcode of its word says
which update was made: a write of the target register, the trap, or the stop (R113, R114). -/
theorem step_next_cases {s t : State} (h : step s = .next t) :
    s.cpu.pc < s.store.capacity ∧
    ((∃ r : RegIndex, ∃ v, opNat (s.store.slotWord s.cpu.pc) ≤ 2 ∧
        rtNat (s.store.slotWord s.cpu.pc) = r.val ∧ t = (s.setReg r v).retire []) ∨
      (opNat (s.store.slotWord s.cpu.pc) = 3 ∧ t = s.takeTrap) ∨
      (opNat (s.store.slotWord s.cpu.pc) = 4 ∧ t = s.stop)) := by
  obtain ⟨i, hpc, hd, he⟩ := step_next h
  refine ⟨hpc, ?_⟩
  rw [← opField_toNat]
  rcases decodeWord_cases (s.store.slotWord s.cpu.pc) with
    ⟨hop, e⟩ | ⟨hop, e⟩ | ⟨hop, e⟩ | ⟨hop, e⟩ | ⟨hop, e⟩ | ⟨-, e⟩ <;> cases hd.symm.trans e
  · obtain ⟨r, hr, rfl⟩ := execMovImm_next he
    exact .inl ⟨r, _, by omega, rtNat_of_targetIndex hr, rfl⟩
  · obtain ⟨r, u, hr, -, rfl⟩ := execAddReg_next he
    exact .inl ⟨r, _, by omega, rtNat_of_targetIndex hr, rfl⟩
  · obtain ⟨r, hr, rfl⟩ := execAddImm_next he
    exact .inl ⟨r, _, by omega, rtNat_of_targetIndex hr, rfl⟩
  · cases he
    exact .inr (.inl ⟨hop, rfl⟩)
  · cases he
    exact .inr (.inr ⟨hop, rfl⟩)

/-- The index check refuses only what the meaning after it refuses. -/
theorem withReg_ne_refused {i : Int} {k : RegIndex → Answer} {q : Refusal}
    (hk : ∀ r, k r ≠ .refused q) : withReg i k ≠ .refused q := by
  rcases withReg_cases i k with ⟨r, -, e⟩ | ⟨-, e⟩
  · rw [e]
    exact hk r
  · simp [e]

/-- Every instruction has a meaning: none is refused. -/
theorem exec_ne_refused (i : Instr) (s : State) (q : Refusal) : exec i s ≠ .refused q := by
  cases i with
  | movImm rt imm => exact withReg_ne_refused fun r => nofun
  | addReg rt rs => exact withReg_ne_refused fun r => withReg_ne_refused fun u => nofun
  | addImm rt imm => exact withReg_ne_refused fun r => nofun
  | trap => nofun
  | halt => nofun

/-- A step answers a next state or a fault, and nothing else (R115, R116). -/
theorem step_next_or_fault (s : State) : (∃ t, step s = .next t) ∨ ∃ f, step s = .fault f := by
  cases h : step s with
  | next t => exact .inl ⟨t, rfl⟩
  | fault f => exact .inr ⟨f, rfl⟩
  | refused q =>
    by_cases hpc : s.cpu.pc < s.store.capacity
    · cases hd : decodeWord (s.store.slotWord s.cpu.pc) with
      | instr i => exact absurd (step_of_instr hpc hd ▸ h) (exec_ne_refused i s q)
      | illegal => simp [step_of_illegal hpc hd] at h
    · simp [step_of_not_lt hpc] at h

/-! ### What a step leaves of each field -/

/-- No step writes the store (R50). -/
theorem step_store {s t : State} (h : step s = .next t) : t.store = s.store := by
  obtain ⟨-, ⟨r, v, -, -, rfl⟩ | ⟨-, rfl⟩ | ⟨-, rfl⟩⟩ := step_next_cases h <;> rfl

/-- No step writes `interrupts_enabled` (R33). -/
theorem step_interruptsEnabled {s t : State} (h : step s = .next t) :
    t.cpu.interruptsEnabled = s.cpu.interruptsEnabled := by
  obtain ⟨-, ⟨r, v, -, -, rfl⟩ | ⟨-, rfl⟩ | ⟨-, rfl⟩⟩ := step_next_cases h <;> rfl

/-- What a step reports and where it leaves `pc`: Continue with `pc` advanced for the opcodes below 4, Stop
with `pc` kept for opcode 4 (R27). -/
theorem step_signal_pc {s t : State} (h : step s = .next t) :
    (t.report.signal = .continued ∧ opNat (s.store.slotWord s.cpu.pc) < 4 ∧
      t.cpu.pc = s.cpu.pc + 1) ∨
    (t.report.signal = .stopped ∧ opNat (s.store.slotWord s.cpu.pc) = 4 ∧ t.cpu.pc = s.cpu.pc) := by
  obtain ⟨-, ⟨r, v, hop, -, rfl⟩ | ⟨hop, rfl⟩ | ⟨hop, rfl⟩⟩ := step_next_cases h
  · exact .inl ⟨rfl, by omega, rfl⟩
  · exact .inl ⟨rfl, by omega, rfl⟩
  · exact .inr ⟨rfl, hop, rfl⟩

/-- A slot index below a capacity does not wrap when it is advanced (R28). -/
theorem toNat_pc_add_one {i cap : SlotIndex} (h : i < cap) : (i + 1).toNat = i.toNat + 1 := by
  bv_omega

/-- An advance from below the capacity does not pass it (R28). -/
theorem pc_add_one_le {i cap : SlotIndex} (h : i < cap) : i + 1 ≤ cap := by
  rw [BitVec.le_def, toNat_pc_add_one h]
  exact h

/-- A step that answers a next state leaves `pc` at most the capacity, wherever it began. -/
theorem step_pc_le_capacity {s t : State} (h : step s = .next t) : t.cpu.pc ≤ t.store.capacity := by
  obtain ⟨hpc, -⟩ := step_next_cases h
  rw [step_store h]
  rcases step_signal_pc h with ⟨-, -, e⟩ | ⟨-, -, e⟩ <;> rw [e]
  · exact pc_add_one_le hpc
  · exact BitVec.le_of_lt hpc

/-! ### Replacing `interrupts_enabled` -/

/-- An answer with its next state, if it has one, changed by `g`. -/
def mapNext (g : State → State) : Answer → Answer
  | .next t => .next (g t)
  | .fault f => .fault f
  | .refused q => .refused q

@[simp] theorem mapNext_next (g : State → State) (t : State) : mapNext g (.next t) = .next (g t) := rfl
@[simp] theorem mapNext_fault (g : State → State) (f : Fault) : mapNext g (.fault f) = .fault f := rfl

/-- A change of the next state goes through the index check. -/
theorem mapNext_withReg (g : State → State) (i : Int) (k : RegIndex → Answer) :
    mapNext g (withReg i k) = withReg i fun r => mapNext g (k r) := by
  unfold withReg
  cases resolveReg i <;> rfl

/-- Every instruction commutes with a replacement of the flag (R33). -/
theorem exec_withInterruptsEnabled (i : Instr) (s : State) (b : Bool) :
    exec i (s.withInterruptsEnabled b) = mapNext (·.withInterruptsEnabled b) (exec i s) := by
  cases i with
  | movImm rt imm =>
    simp only [exec, execMovImm, mapNext_withReg]
    rfl
  | addReg rt rs =>
    simp only [exec, execAddReg, mapNext_withReg]
    rfl
  | addImm rt imm =>
    simp only [exec, execAddImm, mapNext_withReg]
    rfl
  | trap => rfl
  | halt => rfl

/-- The step commutes with a replacement of the flag (R33). -/
theorem step_withInterruptsEnabled (s : State) (b : Bool) :
    step (s.withInterruptsEnabled b) = mapNext (·.withInterruptsEnabled b) (step s) := by
  by_cases hpc : s.cpu.pc < s.store.capacity
  · cases hd : decodeWord (s.store.slotWord s.cpu.pc) with
    | instr i =>
      rw [step_of_instr hpc hd, step_of_instr (s := s.withInterruptsEnabled b) hpc hd,
        exec_withInterruptsEnabled]
    | illegal =>
      rw [step_of_illegal hpc hd, step_of_illegal (s := s.withInterruptsEnabled b) hpc hd,
        mapNext_fault]
  · rw [step_of_not_lt hpc, step_of_not_lt (s := s.withInterruptsEnabled b) hpc, mapNext_fault]

/-- The CPU State that a step puts out, failed or not, has the flag of the state before it. -/
theorem stepResult_interruptsEnabled (s : State) :
    (stepResult s).cpu.interruptsEnabled = s.cpu.interruptsEnabled := by
  rcases step_next_or_fault s with ⟨t, h⟩ | ⟨f, h⟩
  · rw [stepResult_next h]
    exact step_interruptsEnabled h
  · rw [stepResult_fault h]

/-! ### Reset -/

/-- A CPU in the reset state has 0 in every register (R39). -/
theorem State.getReg_of_cpu_reset {s : State} (h : s.cpu = CpuState.reset) (q : RegIndex) :
    s.getReg q = 0 := by
  simp [State.getReg, h, CpuState.reset]

/-- Every slot of a store constructed empty holds the canonical HALT word (R39, R55). -/
theorem InstructionStore.iFetch_constructEmpty {cap i : SlotIndex} (h : i < cap) :
    (InstructionStore.constructEmpty cap).iFetch i = some 0x0004000000000000#64 := by
  refine InstructionStore.iFetch_eq_some.mpr ⟨h, ?_⟩
  rw [InstructionStore.slotWord_of_unlisted _ _ (by simp [InstructionStore.constructEmpty])]
  decide

/-! ### The statements -/

/-- Settles O21: the store is the same one, and only a step from below the capacity advances `pc`. -/
theorem stepKeepsTheInvariant : Obligations.StepKeepsTheInvariant := by
  intro s t ⟨hwf, _⟩ h
  have hstore : t.store.wf := by rwa [step_store h]
  exact ⟨hstore, step_pc_le_capacity h⟩

/-- Settles O12, by what the step answers: a next state with either signal, or a fault. -/
theorem programCounterAdvancesByOneOrStays : Obligations.ProgramCounterAdvancesByOneOrStays := by
  intro s
  rcases step_next_or_fault s with ⟨t, h⟩ | ⟨f, h⟩
  · obtain ⟨hpc, -⟩ := step_next_cases h
    rw [stepResult_next h]
    rcases step_signal_pc h with ⟨hs, hop, e⟩ | ⟨hs, hop, e⟩ <;> simp only [hs, e, Signal.outcome]
    · exact ⟨fun _ => ⟨toNat_pc_add_one hpc, hop⟩, nofun, nofun⟩
    · exact ⟨nofun, fun _ => ⟨trivial, hop⟩, nofun⟩
  · simp [stepResult_fault h]

/-- Settles O15: only the write of the target register touches the register file. -/
theorem onlyTheTargetRegisterChanges : Obligations.OnlyTheTargetRegisterChanges := by
  intro s t q h hq
  obtain ⟨-, ⟨r, v, hop, hrt, rfl⟩ | ⟨-, rfl⟩ | ⟨-, rfl⟩⟩ := step_next_cases h
  · have hqr : q = r := by
      by_contra hne
      exact hq (by simp [hne])
    exact ⟨hop, hqr ▸ hrt⟩
  · exact absurd rfl hq
  · exact absurd rfl hq

/-- Settles O18: the flag is kept, and the step commutes with a replacement of it. -/
theorem interruptsEnabledIsInert : Obligations.InterruptsEnabledIsInert := by
  intro s b
  refine ⟨fun t h => ⟨step_interruptsEnabled h, ?_⟩, fun f h => ?_, ?_⟩
  · rw [step_withInterruptsEnabled, h, mapNext_next]
  · rw [step_withInterruptsEnabled, h, mapNext_fault]
  · rw [stepPorts, stepResult_interruptsEnabled]

/-- Settles O29: a reset replaces the CPU State alone, and nothing is listed in an empty store. -/
theorem resetGivesTheEmptyCpuState : Obligations.ResetGivesTheEmptyCpuState :=
  ⟨fun _ => ⟨State.getReg_of_cpu_reset rfl, rfl, rfl, rfl, rfl, fun _ => rfl⟩,
    State.getReg_of_cpu_reset rfl, rfl, rfl, rfl, fun _ _ => InstructionStore.iFetch_constructEmpty⟩

/-- Settles O30: the store at reset lists nothing, and `pc` is 0. -/
theorem resetMeetsTheInvariant : Obligations.ResetMeetsTheInvariant :=
  ⟨State.reset_store_wf, by decide⟩

end Sys2Proof.Machine
end

section
/-! SUPPORT. The proofs of the statements about the store (20_memory.md): first the rules for the store's
bytes, its slots and loads, and for a step, a run, the host's moves and an engine as users of the store; then
one theorem per statement. -/

namespace Sys2Proof.Machine

/-! ### Memories as data -/

/-- An entry of a memory in rising order is what its address reads as. -/
theorem Memory.readByte_of_mem {m : Memory} (hm : m.Pairwise fun c d => c.1 < d.1) {c : Host.Cell}
    (hc : c ∈ m) : Memory.readByte m c.1 = c.2 := by
  induction m with
  | nil => simp at hc
  | cons d m ih =>
    obtain ⟨hlt, hm'⟩ := List.pairwise_cons.mp hm
    rcases List.mem_cons.mp hc with rfl | hc
    · simp [Memory.readByte]
    · have hne : c.1 ≠ d.1 := (hlt c hc).ne'
      simp [Memory.readByte, hne, ih hm' hc]

/-- A canonical memory lists exactly the cells that read differently from an empty slot. -/
theorem Memory.mem_iff_readByte {m : Memory} (hm : Memory.wf m) {c : Host.Cell} :
    c ∈ m ↔ Memory.readByte m c.1 = c.2 ∧ c.2 ≠ unlistedByte c.1 := by
  obtain ⟨hs, hn⟩ := hm
  refine ⟨fun hc => ⟨Memory.readByte_of_mem hs hc, hn c hc⟩, fun ⟨hr, hne⟩ => ?_⟩
  obtain ⟨d, hd, ha⟩ : ∃ d ∈ m, d.1 = c.1 := by
    by_contra hno
    exact hne (hr ▸ Memory.readByte_of_unlisted m c.1 fun d hd ha => hno ⟨d, hd, ha⟩)
  have hv : d.2 = c.2 := by rw [← Memory.readByte_of_mem hs hd, ha, hr]
  exact Prod.ext ha hv ▸ hd

/-- Canonical memories that read the same are the same list: they list the same cells in rising order. -/
theorem Memory.eq_of_readByte_eq {m n : Memory} (hm : Memory.wf m) (hn : Memory.wf n)
    (h : ∀ a, Memory.readByte m a = Memory.readByte n a) : m = n := by
  have : Std.Asymm fun c d : Host.Cell => c.1 < d.1 := ⟨fun _ _ => Nat.lt_asymm⟩
  exact List.Pairwise.eq_of_mem_iff hm.1 hn.1 fun c => by
    rw [Memory.mem_iff_readByte hm, Memory.mem_iff_readByte hn, h]

/-! ### Slots and loads -/

/-- The last write of a slot counts: an earlier one leaves no trace in the data (R56). -/
theorem InstructionStore.writeSlot_writeSlot {st : InstructionStore} (hm : Memory.wf st.memory)
    (i : SlotIndex) (v w : InstrWord) : (st.writeSlot i v).writeSlot i w = st.writeSlot i w := by
  have hv : Memory.wf (st.writeSlot i v).memory := Memory.writeBytes_wf _ hm _ _
  have hmem : ((st.writeSlot i v).writeSlot i w).memory = (st.writeSlot i w).memory := by
    refine Memory.eq_of_readByte_eq (Memory.writeBytes_wf _ hv _ _)
      (Memory.writeBytes_wf _ hm _ _) fun a => ?_
    simp only [InstructionStore.readByte_writeSlot _ hv, InstructionStore.readByte_writeSlot _ hm]
    split <;> rfl
  exact congrArg (InstructionStore.mk st.capacity) hmem

/-- The fetch after a slot below the capacity is written: its word in its own slot, and what was fetched
before in every other. -/
theorem InstructionStore.iFetch_writeSlot {st : InstructionStore} (hm : Memory.wf st.memory)
    {i : SlotIndex} (hi : i < st.capacity) (j : SlotIndex) (w : InstrWord) :
    (st.writeSlot i w).iFetch j = if j = i then some w else st.iFetch j := by
  simp only [InstructionStore.iFetch, InstructionStore.slotWord_writeSlot st hm,
    InstructionStore.writeSlot_capacity]
  by_cases h : j = i <;> simp [h, hi]

/-- A load below the capacity is accepted and writes its slot (R56). -/
theorem InstructionStore.populate_of_lt {st : InstructionStore} {i : SlotIndex} (h : i < st.capacity)
    (w : InstrWord) : st.populate i w = ⟨st.writeSlot i w, true⟩ := by
  simp [InstructionStore.populate, h]

/-- A load at or above the capacity is refused without effect (R57). -/
theorem InstructionStore.populate_of_le {st : InstructionStore} {i : SlotIndex} (h : st.capacity ≤ i)
    (w : InstrWord) : st.populate i w = ⟨st, false⟩ := by
  simp [InstructionStore.populate, BitVec.not_lt.mpr h]

/-! ### Words as the opcode table gives them -/

/-- The bytes of a word decode to what the word decodes to, with nothing left over. -/
theorem decode_wordBytes (w : InstrWord) :
    (∃ i, decodeWord w = .instr i ∧ decode (wordBytes w) = .ok (i, [])) ∨
    (decodeWord w = .illegal ∧ decode (wordBytes w) = .error .illegalOpcode) := by
  cases hd : decodeWord w with
  | instr i => exact .inl ⟨i, rfl, by simp [decode, wordBytes, hd]⟩
  | illegal => exact .inr ⟨rfl, by simp [decode, wordBytes, hd]⟩

/-- A table word decodes as the word of the machine that it stands for. -/
theorem decodeTableWord_eq_some {n w : Nat} {i : Instr} (h : decodeTableWord n w = some i) :
    decodeWord (tableWord n w) = .instr i := by
  unfold decodeTableWord at h
  rcases decode_wordBytes (tableWord n w) with ⟨j, hj, e⟩ | ⟨-, e⟩ <;> rw [e] at h
  · cases h
    exact hj
  · cases h

@[simp] theorem State.withFetchWord_cpu (s : State) (n w : Nat) : (s.withFetchWord n w).cpu = s.cpu := rfl

@[simp] theorem State.withFetchWord_store (s : State) (n w : Nat) :
    (s.withFetchWord n w).store = (s.store.populate s.cpu.pc (tableWord n w)).store := rfl

/-! ### Steps and runs -/

/-- Keeping the store keeps every byte of it. -/
theorem StoreKept.of_store_eq {s t : State} (h : t.store = s.store) : StoreKept s t :=
  ⟨h, fun a => by rw [h]⟩

/-- A step request leaves the store, whether it fails or not. -/
theorem State.afterStep_store (s : State) : s.afterStep.store = s.store := by
  rcases s.afterStep_cases with ⟨t, h, e⟩ | e <;> rw [e]
  exact step_store h

@[simp] theorem RunResult.after_final (r : RunResult) (es : List Event) :
    (r.after es).final = r.final := rfl

/-- What every step keeps holds at the end of every run. -/
theorem drive_final_of_step {P : State → Prop} (hstep : ∀ s t, P s → step s = .next t → P t)
    (n : Nat) {s : State} (hs : P s) : P (drive n s).final := by
  induction n generalizing s with
  | zero => exact hs
  | succ n ih =>
    rcases step_next_or_fault s with ⟨t, h⟩ | ⟨f, h⟩
    · have ht : P t := hstep s t hs h
      cases hsig : t.report.signal with
      | continued =>
        rw [drive_continued h hsig, RunResult.after_final]
        exact ih ht
      | stopped => rwa [drive_stopped h hsig]
    · rwa [drive_fault h]

/-- A run leaves the store (R58). -/
theorem drive_store (n : Nat) (s : State) : (drive n s).final.store = s.store :=
  drive_final_of_step (P := fun t => t.store = s.store)
    (fun _ _ hs h => (step_store h).trans hs) n rfl

/-- A run leaves `interrupts_enabled` (R34). -/
theorem drive_interruptsEnabled (n : Nat) (s : State) :
    (drive n s).final.cpu.interruptsEnabled = s.cpu.interruptsEnabled :=
  drive_final_of_step (P := fun t => t.cpu.interruptsEnabled = s.cpu.interruptsEnabled)
    (fun _ _ hs h => (step_interruptsEnabled h).trans hs) n rfl

/-! ### The host's moves -/

/-- Where an accepted move of the host leads: one that writes the store is accepted only while no execution
is in progress (R59), and the other two leave the store to the reset and to the step. -/
theorem Session.move_cases {m : HostMove} {x y : Session} {a : HostAnswer}
    (h : Session.move m x = some (a, y)) :
    (∃ cap, m = .constructStore cap ∧ x.phase ≠ .executing ∧
      y = ⟨{ x.machine with store := InstructionStore.constructEmpty cap }, x.phase⟩) ∨
    (∃ i w, m = .load i w ∧ x.phase ≠ .executing ∧
      y = ⟨{ x.machine with store := (x.machine.store.populate i w).store }, x.phase⟩) ∨
    (m = .resetCpu ∧ y = ⟨x.machine.resetCpu, .ready⟩) ∨
    (m = .step ∧ y = ⟨x.machine.afterStep, (stepResult x.machine).outcome.phase⟩) := by
  cases m with
  | constructStore cap =>
    simp only [Session.move] at h
    split at h
    · cases h
    · next hp =>
      cases h
      exact .inl ⟨cap, rfl, hp, rfl⟩
  | load i w =>
    simp only [Session.move] at h
    split at h
    · cases h
    · next hp =>
      cases h
      exact .inr (.inl ⟨i, w, rfl, hp, rfl⟩)
  | resetCpu =>
    cases h
    exact .inr (.inr (.inl ⟨rfl, rfl⟩))
  | step =>
    cases h
    exact .inr (.inr (.inr ⟨rfl, rfl⟩))

/-! ### Steps and the last report -/

/-- Every instruction overwrites the last report without reading it (log 2). -/
theorem exec_eq_of_cpu_store (i : Instr) {s t : State} (hc : s.cpu = t.cpu) (hs : s.store = t.store) :
    exec i s = exec i t := by
  obtain ⟨c, st, r⟩ := s
  obtain ⟨c', st', r'⟩ := t
  subst hc hs
  cases i <;> rfl

/-- A step's answer, its report included, depends only on the CPU State and the store (R70). -/
theorem step_eq_of_cpu_store {s t : State} (hc : s.cpu = t.cpu) (hs : s.store = t.store) :
    step s = step t := by
  simp only [step, hc, hs, exec_eq_of_cpu_store _ hc hs]

/-- If the step of an engine answers a next system, that is the system with the stepped machine put back. -/
theorem EngineSystem.stepEngine_eq_next {y y' : EngineSystem} {k : Fin y.engines.length} :
    y.stepEngine k = .next y' ↔ ∃ t, step (y.machine y.engines[k]) = .next t ∧ y' = y.put k t := by
  rcases y.stepEngine_cases k with ⟨t, h, e⟩ | ⟨f, h, e⟩ | ⟨r, h, e⟩ <;> rw [h, e]
  · simp [eq_comm]
  · simp
  · simp

/-- The step of an engine fails exactly as its own machine does. -/
theorem EngineSystem.stepEngine_eq_fault {y : EngineSystem} {k : Fin y.engines.length} {f : Fault} :
    y.stepEngine k = .fault f ↔ step (y.machine y.engines[k]) = .fault f := by
  rcases y.stepEngine_cases k with ⟨t, h, e⟩ | ⟨f, h, e⟩ | ⟨r, h, e⟩ <;> rw [h, e] <;> simp

/-! ### The statements -/

/-- Settles O40: the store at reset is the one constructed empty with 1024 slots. -/
theorem resetStoreIsTheEmptyReferenceStore : Obligations.ResetStoreIsTheEmptyReferenceStore :=
  ⟨rfl, fun _ => InstructionStore.iFetch_constructEmpty⟩

/-- Settles O20: no update of a step touches the store. -/
theorem stepNeverWritesTheStore : Obligations.StepNeverWritesTheStore :=
  fun _ _ h => StoreKept.of_store_eq (step_store h)

/-- Settles O25: the load writes the slot at `pc`, and the step fetches the word it wrote. -/
theorem loadedWordRunsNext : Obligations.LoadedWordRunsNext := by
  intro s w i hm hpc hd
  refine ⟨rfl, step_of_instr (by simpa using hpc) ?_⟩
  rw [State.withFetchWord_store, State.withFetchWord_cpu, InstructionStore.populate_of_lt hpc,
    InstructionStore.slotWord_writeSlot _ hm, if_pos rfl]
  exact decodeTableWord_eq_some hd

/-- Settles O26: a slot in which nothing is listed holds the canonical HALT word, and HALT is executed. -/
theorem neverPopulatedSlotHalts : Obligations.NeverPopulatedSlotHalts := by
  refine ⟨fun _ _ => InstructionStore.iFetch_constructEmpty, fun s hpc hun => ?_⟩
  have hd : decodeWord (s.store.slotWord s.cpu.pc) = .instr .halt := by
    rw [InstructionStore.slotWord_of_unlisted _ _ hun]
    decide
  exact step_of_instr hpc hd

/-- Settles O27: an accepted load is the write of one slot, by whose rules every clause reads off. -/
theorem populateSetsOneSlot : Obligations.PopulateSetsOneSlot := by
  intro st ⟨hm, _⟩ i w
  refine ⟨fun hi => ?_, fun hi => InstructionStore.populate_of_le hi w⟩
  rw [InstructionStore.populate_of_lt hi]
  refine ⟨rfl, ?_, fun j hj => ?_, fun a ha => ?_, rfl, fun v => ?_⟩
  · rw [InstructionStore.iFetch_writeSlot hm hi, if_pos rfl]
  · rw [InstructionStore.iFetch_writeSlot hm hi, if_neg hj]
  · rw [InstructionStore.readByte_writeSlot st hm, if_neg ha]
  · have hi' : i < (st.writeSlot i v).capacity := hi
    rw [InstructionStore.populate_of_lt hi, InstructionStore.populate_of_lt hi',
      InstructionStore.writeSlot_writeSlot hm]

/-- Settles O28: the reads of a canonical memory say which cells it lists. -/
theorem canonicalMemoriesAreEqualData : Obligations.CanonicalMemoriesAreEqualData :=
  fun _ _ => Memory.eq_of_readByte_eq

/-- Settles O34: a run keeps what every step keeps. -/
theorem runsKeepTheStoreAndTheFlag : Obligations.RunsKeepTheStoreAndTheFlag := by
  refine fun n s => ⟨StoreKept.of_store_eq (drive_store n s), drive_interruptsEnabled n s,
    fun hr => ?_, drive_final_of_step stepKeepsTheInvariant n⟩
  rw [drive_interruptsEnabled, hr]
  rfl

/-- Settles O37, by the moves: the two that write the store are not accepted during an execution, and a
reset and a step leave the store. -/
theorem noStoreWriteDuringAnExecution : Obligations.NoStoreWriteDuringAnExecution := by
  intro x y m a h
  obtain ⟨cap, rfl, hp, rfl⟩ | ⟨i, w, rfl, hp, rfl⟩ | ⟨rfl, rfl⟩ | ⟨rfl, rfl⟩ := Session.move_cases h
  · exact ⟨fun hx => absurd hx hp, nofun, fun _ => InstructionStore.constructEmpty_wf cap⟩
  · exact ⟨fun hx => absurd hx hp, fun _ _ _ => ⟨rfl, rfl⟩,
      fun hwf => InstructionStore.populate_wf _ hwf i w⟩
  · exact ⟨fun _ => ⟨rfl, fun _ _ _ => ⟨nofun, nofun⟩⟩, nofun, fun hwf => hwf⟩
  · have hst := x.machine.afterStep_store
    exact ⟨fun _ => ⟨hst, fun _ _ _ => ⟨nofun, nofun⟩⟩, nofun, fun hwf => by rwa [hst]⟩

/-- Settles O38: an engine's step puts back that engine alone, and its answer depends on nothing else than
the engine's CPU State and the store. -/
theorem enginesDoNotInteract : Obligations.EnginesDoNotInteract := by
  refine ⟨fun y y' k h => ?_, fun y z k l hst hcpu => ?_⟩
  · obtain ⟨t, -, rfl⟩ := EngineSystem.stepEngine_eq_next.mp h
    exact ⟨rfl, y.put_length k t, fun j hj => by rw [EngineSystem.getElem?_put, if_neg hj]⟩
  · have hstep : step (y.machine y.engines[k]) = step (z.machine z.engines[l]) :=
      step_eq_of_cpu_store hcpu hst
    refine ⟨fun y' h => ?_, fun f h => ?_⟩
    · obtain ⟨t, ht, rfl⟩ := EngineSystem.stepEngine_eq_next.mp h
      exact ⟨z.put l t, EngineSystem.stepEngine_eq_next.mpr ⟨t, hstep ▸ ht, rfl⟩,
        by rw [EngineSystem.getElem?_put, EngineSystem.getElem?_put, if_pos rfl, if_pos rfl]⟩
    · exact EngineSystem.stepEngine_eq_fault.mpr (hstep ▸ EngineSystem.stepEngine_eq_fault.mp h)

end Sys2Proof.Machine
end


section
/-! SUPPORT. The proofs of the statements about the encoding (30_encoding.md): first the fields of a word and
of a record, the decoder on words written from fields and over bytes; then one theorem per statement. -/

namespace Sys2Proof.Machine

/-! ### Words and their fields -/

/-- A word written from fields, as a number: no two fields overlap (R83). -/
theorem joinFields_toNat (op rt : BitVec 16) (o : BitVec 32) :
    (joinFields op rt o).toNat = op.toNat * 2 ^ 48 + rt.toNat * 2 ^ 32 + o.toNat := by
  have ho := o.isLt
  have hrt := rt.isLt
  simp only [joinFields, BitVec.toNat_append]
  rw [← Nat.shiftLeft_add_eq_or_of_lt hrt, ← Nat.shiftLeft_add_eq_or_of_lt ho]
  simp only [Nat.shiftLeft_eq]
  omega

theorem opndField_toNat (w : InstrWord) : (opndField w).toNat = opndNat w := by
  simp [opndField, opndNat, BitVec.extractLsb'_toNat]

/-- Writing a word from its own fields gives it back: no bit is outside them (R83). -/
@[simp] theorem joinFields_fields (w : InstrWord) :
    joinFields (opField w) (rtField w) (opndField w) = w := by
  refine BitVec.eq_of_toNat_eq ?_
  rw [joinFields_toNat, opField_toNat, rtField_toNat, opndField_toNat, opNat, rtNat, opndNat]
  omega

theorem opField_of_opNat_eq {w : InstrWord} {op : BitVec 16} (h : opNat w = op.toNat) : opField w = op :=
  BitVec.eq_of_toNat_eq ((opField_toNat w).trans h)

/-- A word written again from its target and operand fields under the opcode it has. -/
theorem joinFields_of_opNat_eq {w : InstrWord} {op : BitVec 16} (h : opNat w = op.toNat) :
    joinFields op (rtField w) (opndField w) = w := by
  rw [← opField_of_opNat_eq h, joinFields_fields]

/-! ### Fields of records -/

/-- A target field is an unsigned 16-bit integer (R83). -/
theorem targetFits_targetIndex (r : BitVec 16) : targetFits (targetIndex r) = true := by
  have := r.isLt
  simp only [targetFits_iff, targetIndex]
  omega

@[simp] theorem ofInt_targetIndex (r : BitVec 16) : BitVec.ofInt 16 (targetIndex r) = r := by
  simp [targetIndex]

theorem targetIndex_ofInt {rt : Int} (h : targetFits rt = true) :
    targetIndex (BitVec.ofInt 16 rt) = rt := by
  obtain ⟨h0, h1⟩ := targetFits_iff.mp h
  simp only [targetIndex, BitVec.toNat_ofInt]
  omega

/-- An operand field is a signed 32-bit integer (R85). -/
theorem operandFits_operandIndex (o : BitVec 32) : operandFits (operandIndex o) = true :=
  operandFits_iff.mpr ⟨o.le_toInt, o.toInt_lt⟩

@[simp] theorem ofInt_operandIndex (o : BitVec 32) : BitVec.ofInt 32 (operandIndex o) = o :=
  BitVec.ofInt_toInt

theorem operandIndex_ofInt {rs : Int} (h : operandFits rs = true) :
    operandIndex (BitVec.ofInt 32 rs) = rs := by
  obtain ⟨h0, h1⟩ := operandFits_iff.mp h
  exact BitVec.toInt_ofInt_eq_self (by decide) h0 h1

/-! ### The decoder and the encoder -/

/-- A word is illegal exactly when its opcode is above 4 (R87). -/
theorem decodeWord_eq_illegal_iff {w : InstrWord} : decodeWord w = .illegal ↔ 5 ≤ opNat w := by
  rw [← opField_toNat]
  obtain ⟨ho, hd⟩ | ⟨ho, hd⟩ | ⟨ho, hd⟩ | ⟨ho, hd⟩ | ⟨ho, hd⟩ | ⟨ho, hd⟩ := decodeWord_cases w
  all_goals simp [ho, hd]

/-- Decoding the canonical word of a record that has one gives the record (R91). -/
theorem decodeWord_encode {i : Instr} (h : i.wellFormed = true) : decodeWord (encode i) = .instr i := by
  cases i with
  | movImm rt imm =>
    have hrt : targetFits rt = true := h
    simp [decodeWord, encode, immediate, targetIndex_ofInt hrt]
  | addReg rt rs =>
    obtain ⟨hrt, hrs⟩ : targetFits rt = true ∧ operandFits rs = true := by
      simpa [Instr.wellFormed] using h
    simp [decodeWord, encode, targetIndex_ofInt hrt, operandIndex_ofInt hrs]
  | addImm rt imm =>
    have hrt : targetFits rt = true := h
    simp [decodeWord, encode, immediate, targetIndex_ofInt hrt]
  | trap => simp [decodeWord, encode]
  | halt => simp [decodeWord, encode]

/-- What is decoded can be encoded, and its canonical word is the word itself where the opcode reads its
fields, and the word with them cleared for `TRAP` and `HALT` (R88, R91). -/
theorem encode_of_decodeWord {w : InstrWord} {i : Instr} (h : decodeWord w = .instr i) :
    i.wellFormed = true ∧
    encode i = if opNat w ≤ 2 then w else joinFields (opField w) 0 0 := by
  have hrt := targetFits_targetIndex (rtField w)
  have hrs := operandFits_operandIndex (opndField w)
  have hcases := decodeWord_cases w
  simp only [opField_toNat, h, Decoded.instr.injEq, reduceCtorEq, and_false, or_false] at hcases
  obtain ⟨ho, rfl⟩ | ⟨ho, rfl⟩ | ⟨ho, rfl⟩ | ⟨ho, rfl⟩ | ⟨ho, rfl⟩ := hcases
  · exact ⟨hrt, by simpa [encode, ho] using joinFields_of_opNat_eq (op := 0) ho⟩
  · exact ⟨by simp [Instr.wellFormed, hrt, hrs],
      by simpa [encode, ho] using joinFields_of_opNat_eq (op := 1) ho⟩
  · exact ⟨hrt, by simpa [encode, ho] using joinFields_of_opNat_eq (op := 2) ho⟩
  · exact ⟨rfl, by simp [encode, ho, opField_of_opNat_eq (op := 3) ho]⟩
  · exact ⟨rfl, by simp [encode, ho, opField_of_opNat_eq (op := 4) ho]⟩

/-- The bytes of a word, with any bytes after them, decode to what the word decodes to (R60). -/
theorem decode_wordBytes_append {w : InstrWord} {i : Instr} (h : decodeWord w = .instr i)
    (rest : List Byte) : decode (wordBytes w ++ rest) = .ok (i, rest) := by
  simp [decode, wordBytes, h]

/-! ### The statements -/

/-- Settles O23: R91's words are `encode` written out, and each round trip is the lemma above about it. -/
theorem decodeAndEncodeAgree : Obligations.DecodeAndEncodeAgree := by
  refine ⟨fun rt imm => ⟨?_, ?_⟩, fun rt rs _ _ => ?_, rfl, rfl, fun _ => decodeWord_encode,
    fun i rest hi => decode_wordBytes_append (decodeWord_encode hi) rest, fun w i h => ?_⟩
  · simp [encode, joinFields]
  · simp [encode, joinFields]
  · simp [encode, joinFields]
  · obtain ⟨hwf, he⟩ := encode_of_decodeWord h
    refine ⟨hwf, fun hle => by rw [he, if_pos hle], fun hge => ?_⟩
    rw [he, if_neg (by omega), joinFields_toNat, opField_toNat]
    simp

/-- Settles O24: the word is rebuilt from its fields, as a number and as a concatenation. -/
theorem everyBitBelongsToAField : Obligations.EveryBitBelongsToAField := fun w =>
  ⟨by rw [← joinFields_toNat, joinFields_fields], (joinFields_fields w).symm, decodeWord_eq_illegal_iff⟩

/-- Settles O22, by running the decoder on the seven words. -/
theorem sampleWordsDecode : Obligations.SampleWordsDecode := by
  unfold Obligations.SampleWordsDecode
  decide

end Sys2Proof.Machine
end

section
/-! SUPPORT. The proof of the statement about the assembler (R93): what each reader answers on the
text that the writer makes, from numbers to operands, forms and lines. -/

namespace Sys2Proof.Machine

/-! ### Numbers -/

theorem isDigit_iff_le {c : Char} : c.isDigit = true ↔ '0' ≤ c ∧ c ≤ '9' := by
  simp [Char.isDigit, Char.le_def]

theorem digitValue_of_isDigit {base : Nat} {c : Char} (hc : c.isDigit = true) (hb : c.toNat - 48 < base) :
    digitValue base c = some (c.toNat - 48) := by
  simp [digitValue, isDigit_iff_le.mp hc, hb]

theorem decimalValue_of_isDigit {c : Char} (hc : c.isDigit = true) :
    digitValue 10 c = some (c.toNat - 48) := by
  have h9 : c.toNat ≤ '9'.toNat := (isDigit_iff_le.mp hc).2
  have h9' : '9'.toNat = 57 := rfl
  exact digitValue_of_isDigit hc (by omega)

/-- Reading decimal digits adds up their values as the library does. -/
theorem readDigits_ten (acc : Nat) {cs : Chars} (h : ∀ c ∈ cs, c.isDigit = true) :
    readDigits 10 acc cs = some (Nat.ofDigitChars 10 cs acc) := by
  induction cs generalizing acc with
  | nil => rfl
  | cons c cs ih =>
    obtain ⟨hc, hcs⟩ := List.forall_mem_cons.mp h
    simp only [readDigits, decimalValue_of_isDigit hc, ih _ hcs, Nat.ofDigitChars_cons, Nat.mul_comm acc]
    rfl

theorem isDigit_of_mem_toDigits {n : Nat} {c : Char} (h : c ∈ Nat.toDigits 10 n) : c.isDigit = true :=
  Nat.isDigit_of_mem_toDigits (by decide) (by decide) h

@[simp] theorem readNat_toDigits (n : Nat) : readNat 10 (Nat.toDigits 10 n) = some n := by
  have hdig : readDigits 10 0 (Nat.toDigits 10 n) = some n := by
    rw [readDigits_ten 0 fun c => isDigit_of_mem_toDigits, Nat.ofDigitChars_ten_toDigits]
  cases hd : Nat.toDigits 10 n with
  | nil => exact absurd hd Nat.toDigits_ne_nil
  | cons c cs => rw [readNat, ← hd, hdig]; nofun

theorem readInt_neg {cs : Chars} {n : Nat} (h : readNat 10 cs = some n) :
    readInt ('-' :: cs) = some (-(n : Int)) := by
  simp [readInt, h]

theorem readInt_of_readNat {cs : Chars} {n : Nat} (hm : '-' ∉ cs) (h : readNat 10 cs = some n) :
    readInt cs = some (n : Int) := by
  unfold readInt
  split
  · simp at hm
  · simp [h]

@[simp] theorem readInt_intText (v : Int) : readInt (intText v) = some v := by
  unfold intText
  split
  · rw [readInt_neg (readNat_toDigits _), show -((-v).toNat : Int) = v by omega]
  · have hminus : '-' ∉ Nat.toDigits 10 v.toNat := fun h => absurd (isDigit_of_mem_toDigits h) (by decide)
    rw [readInt_of_readNat hminus (readNat_toDigits _), show (v.toNat : Int) = v by omega]

theorem mem_intText {v : Int} {c : Char} (h : c ∈ intText v) : c = '-' ∨ c.isDigit = true := by
  unfold intText at h
  split at h
  · exact (List.mem_cons.mp h).imp_right isDigit_of_mem_toDigits
  · exact .inr (isDigit_of_mem_toDigits h)

theorem not_mem_intText (v : Int) {c : Char} (hm : c ≠ '-') (hd : c.isDigit = false) : c ∉ intText v :=
  fun h => (mem_intText h).elim hm (by simp [hd])

/-! ### Operands -/

/-- The decimal text of a 32-bit word, read as signed, is an immediate in range: the word. -/
@[simp] theorem readImmediate_intText (w : Word) : readImmediate (intText w.toInt) = some w := by
  have hx : 'x' ∉ intText w.toInt := not_mem_intText _ (by decide) (by decide)
  have hfits : operandFits w.toInt = true := operandFits_operandIndex w
  unfold readImmediate
  split
  · next heq => simp [heq] at hx
  · simp [hfits]

/-- The number of a register has one digit. -/
theorem registerText_of_valid {i : Int} (h : ValidReg i) : registerText i = ['R', i.toNat.digitChar] := by
  obtain ⟨h0, h8⟩ := h
  rw [registerText, if_pos ⟨h0, h8⟩, Nat.toDigits_of_lt_base (by omega)]

theorem registerText_of_not_valid {i : Int} (h : ¬ ValidReg i) : registerText i = intText i :=
  if_neg h

/-- The text of a register operand reads back, as a name or as the bare integer. -/
@[simp] theorem readRegister_registerText (i : Int) : readRegister (registerText i) = some i := by
  by_cases h : ValidReg i
  · rw [registerText_of_valid h]
    obtain ⟨h0, h8⟩ := h
    have hv : i.toNat.digitChar.toNat - 48 = i.toNat := Nat.toNat_digitChar_sub_48_of_lt_ten (by omega)
    have hd : i.toNat.digitChar.isDigit = true := by rw [Nat.isDigit_digitChar, decide_eq_true_iff]; omega
    have hi : (i.toNat : Int) = i := by omega
    simp only [readRegister, digitValue_of_isDigit (base := 8) hd (by omega), hv, hi]
  · have hR : 'R' ∉ intText i := not_mem_intText _ (by decide) (by decide)
    rw [registerText_of_not_valid h]
    unfold readRegister
    split
    · next heq => simp [heq] at hR
    · simp only [readInt_intText, if_neg h]

theorem not_mem_registerText (i : Int) {c : Char} (hR : c ≠ 'R') (hm : c ≠ '-') (hd : c.isDigit = false) :
    c ∉ registerText i := by
  unfold registerText
  split
  · exact fun h => (List.mem_cons.mp h).elim hR fun h => by simp [isDigit_of_mem_toDigits h] at hd
  · exact not_mem_intText i hm hd

/-! ### Forms -/

@[simp] theorem afterName_append (name cs : Chars) : afterName name (name ++ cs) = some cs := by
  induction name with
  | nil => rfl
  | cons n name ih => simp [afterName, ih]

theorem splitComma_append {a : Chars} (h : ',' ∉ a) (cs : Chars) :
    splitComma (a ++ ',' :: cs) = some (a, cs) := by
  induction a with
  | nil => simp [splitComma]
  | cons c a ih =>
    obtain ⟨hc, ha⟩ := not_or.mp (mt List.mem_cons.mpr h)
    simp [splitComma, Ne.symm hc, ih ha]

theorem beforeClose_cons (c : Char) {cs : Chars} (h : cs ≠ []) :
    beforeClose (c :: cs) = (beforeClose cs).map fun r => c :: r := by
  cases cs with
  | nil => exact absurd rfl h
  | cons d cs => rfl

@[simp] theorem beforeClose_append (b : Chars) : beforeClose (b ++ [')']) = some b := by
  induction b with
  | nil => rfl
  | cons c b ih => rw [List.cons_append, beforeClose_cons c (by simp), ih, Option.map_some]

theorem dropSpaces_of_not_mem {b : Chars} (h : ' ' ∉ b) :
    ((b ++ [')']).dropWhile fun c => c = ' ') = b ++ [')'] := by
  cases b with
  | nil => rfl
  | cons c b =>
    have hc : c ≠ ' ' := fun hc => h (hc ▸ List.mem_cons_self)
    simp [hc]

theorem operands_append {name a b : Chars} (ha : ',' ∉ a) (hb : ' ' ∉ b) :
    operands name (name ++ a ++ ',' :: (b ++ [')'])) = some (a, b) := by
  rw [operands, List.append_assoc, afterName_append]
  simp [splitComma_append ha, dropSpaces_of_not_mem hb]

/-- A line of a two-operand form with the text of a register and a second operand without spaces reads as
the instruction of those operands. -/
theorem readForm_append {α : Type} (name : Chars) {b : Chars} {second : Chars → Option α}
    (make : Int → α → Instr) (rt : Int) {v : α} (hb : ' ' ∉ b) (hv : second b = some v) :
    readForm name second make (name ++ registerText rt ++ ',' :: (b ++ [')'])) = some (make rt v) := by
  have hcomma : ',' ∉ registerText rt := not_mem_registerText rt (by decide) (by decide) (by decide)
  simp only [readForm, operands_append hcomma hb, readRegister_registerText, hv]

theorem readForm_of_afterName_eq_none {α : Type} {name cs : Chars} (h : afterName name cs = none)
    (second : Chars → Option α) (make : Int → α → Instr) : readForm name second make cs = none := by
  simp [readForm, operands, h]

/-! ### Lines -/

/-- The line of a record reads back, whether or not the record has a word. -/
@[simp] theorem readLine_lineText (i : Instr) : readLine (lineText i) = some i := by
  have hint (v : Int) : ' ' ∉ intText v := not_mem_intText v (by decide) (by decide)
  have hreg (v : Int) : ' ' ∉ registerText v := not_mem_registerText v (by decide) (by decide) (by decide)
  cases i with
  | movImm rt imm =>
    have hform := readForm_append movImmName Instr.movImm rt (hint imm.toInt) (readImmediate_intText imm)
    rw [readLine, lineText, hform]
    rfl
  | addReg rt rs =>
    have hform := readForm_append addRegName Instr.addReg rt (hreg rs) (readRegister_registerText rs)
    rw [readLine, lineText, hform, readForm_of_afterName_eq_none rfl]
    rfl
  | addImm rt imm =>
    have hform := readForm_append addImmName Instr.addImm rt (hint imm.toInt) (readImmediate_intText imm)
    rw [readLine, lineText, hform, readForm_of_afterName_eq_none rfl, readForm_of_afterName_eq_none rfl]
    rfl
  | trap => rfl
  | halt => rfl

/-- Settles O39: the line reads back as its record, and a record that has a word is accepted. -/
theorem assemblerReadsItsNotation : Obligations.AssemblerReadsItsNotation := by
  intro i hi
  have hline : assembleLine (lineText i) = some i := by simp [assembleLine, hi]
  exact ⟨hline, by simp [assembleProgram, hline]⟩

end Sys2Proof.Machine
end

section
/-! SUPPORT. The proofs of the statements about the step and the driver's loop (40_step_cycle.md): first the
decoder by the opcode as a number, the meanings on registers and on bad indices, and what a step and a run can
answer; then one theorem per statement. -/

namespace Sys2Proof.Machine

/-! ### The decoder on the word's numbers -/

/-- The operand as an immediate is the number below `2^32` that the word ends in (R85). -/
theorem opndField_eq_ofNat (w : InstrWord) : opndField w = BitVec.ofNat 32 (opndNat w) := by
  rw [← opndField_toNat, BitVec.ofNat_toNat, BitVec.setWidth_eq]

theorem decodeWord_of_opNat_zero {w : InstrWord} (h : opNat w = 0) :
    decodeWord w = .instr (.movImm (rtNat w) (BitVec.ofNat 32 (opndNat w))) := by
  simp [decodeWord, opField_toNat, h, targetIndex, rtField_toNat, immediate, opndField_eq_ofNat]

theorem decodeWord_of_opNat_one {w : InstrWord} (h : opNat w = 1) :
    decodeWord w = .instr (.addReg (rtNat w) (operandIndex (opndField w))) := by
  simp [decodeWord, opField_toNat, h, targetIndex, rtField_toNat]

theorem decodeWord_of_opNat_two {w : InstrWord} (h : opNat w = 2) :
    decodeWord w = .instr (.addImm (rtNat w) (BitVec.ofNat 32 (opndNat w))) := by
  simp [decodeWord, opField_toNat, h, targetIndex, rtField_toNat, immediate, opndField_eq_ofNat]

theorem decodeWord_of_opNat_three {w : InstrWord} (h : opNat w = 3) : decodeWord w = .instr .trap := by
  simp [decodeWord, opField_toNat, h]

theorem decodeWord_of_opNat_four {w : InstrWord} (h : opNat w = 4) : decodeWord w = .instr .halt := by
  simp [decodeWord, opField_toNat, h]

/-- An operand whose number is a register's names that register (R85). -/
theorem operandIndex_of_opndNat_eq {w : InstrWord} {u : RegIndex} (h : u.val = opndNat w) :
    operandIndex (opndField w) = u := by
  rw [← opndField_toNat] at h
  rw [operandIndex, BitVec.toInt_eq_toNat_of_lt (by omega), h]

/-- A number of 8 or more names no register. -/
theorem not_validReg_of_le {n : Nat} (h : 8 ≤ n) : ¬ ValidReg n := by
  rintro ⟨-, hlt⟩
  omega

/-- An operand whose number is 8 or more names no register: read as signed it stays so, or is negative. -/
theorem not_validReg_operandIndex {w : InstrWord} (h : 8 ≤ opndNat w) :
    ¬ ValidReg (operandIndex (opndField w)) := by
  have hlt := (opndField w).isLt
  rw [← opndField_toNat] at h
  rintro ⟨h0, h8⟩
  rw [operandIndex, BitVec.toInt_eq_toNat_cond] at h0 h8
  split at h0 <;> omega

/-- The eight bytes of a slot decode to what its word decodes to (R60). -/
theorem decode_slotBytes_eq_ok {st : InstructionStore} {p : SlotIndex} {i : Instr} :
    decode (st.slotBytes p) = .ok (i, []) ↔ decodeWord (st.slotWord p) = .instr i := by
  simp only [InstructionStore.slotBytes, decode, InstructionStore.slotWord]
  split
  · next j hj => simp [hj]
  · next hj => simp [hj]

/-! ### The meanings, on registers and on bad indices -/

/-- The write of one register and the advance after it are all that a completed register instruction does
(R24, R114). -/
theorem completesWriting_setReg (s : State) (r : RegIndex) (v : Word) :
    CompletesWriting s ((s.setReg r v).retire []) r v := by
  refine ⟨fun q => ?_, rfl, rfl, rfl, StoreKept.of_store_eq rfl, rfl⟩
  have hq : ((q : Int) = r) ↔ q = r := by rw [Fin.ext_iff]; omega
  simp only [State.retire_getReg, State.getReg_setReg, hq]

theorem exec_movImm_reg (r : RegIndex) (imm : Word) (s : State) :
    exec (.movImm r imm) s = .next ((s.setReg r imm).retire []) :=
  withReg_reg r _

theorem exec_addReg_reg (r u : RegIndex) (s : State) :
    exec (.addReg r u) s = .next ((s.setReg r (add32 (s.getReg r) (s.getReg u))).retire []) := by
  simp [exec, execAddReg]

theorem exec_addImm_reg (r : RegIndex) (imm : Word) (s : State) :
    exec (.addImm r imm) s = .next ((s.setReg r (add32 (s.getReg r) imm)).retire []) :=
  withReg_reg r _

theorem exec_movImm_invalid {rt : Int} (h : ¬ ValidReg rt) (imm : Word) (s : State) :
    exec (.movImm rt imm) s = .fault .invalidRegisterIndex :=
  withReg_invalid h _

theorem exec_addImm_invalid {rt : Int} (h : ¬ ValidReg rt) (imm : Word) (s : State) :
    exec (.addImm rt imm) s = .fault .invalidRegisterIndex :=
  withReg_invalid h _

/-- `ADD_REG` fails on a bad index in either place (R150). -/
theorem exec_addReg_invalid {rt rs : Int} (h : ¬ ValidReg rt ∨ ¬ ValidReg rs) (s : State) :
    exec (.addReg rt rs) s = .fault .invalidRegisterIndex := by
  rcases h with h | h
  · exact withReg_invalid h _
  · simp only [exec, execAddReg, withReg_invalid h]
    rcases withReg_cases rt fun _ => .fault .invalidRegisterIndex with ⟨-, -, e⟩ | ⟨-, e⟩ <;> exact e

/-- The index check raises InvalidRegisterIndex itself, and any other fault comes from the meaning after it. -/
theorem withReg_fault {i : Int} {k : RegIndex → Answer} {f : Fault} (h : withReg i k = .fault f) :
    f = .invalidRegisterIndex ∨ ∃ r, k r = .fault f := by
  rcases withReg_cases i k with ⟨r, -, e⟩ | ⟨-, e⟩ <;> rw [e] at h
  · exact .inr ⟨r, h⟩
  · cases h
    exact .inl rfl

/-- The one fault an instruction raises (R194). -/
theorem exec_fault {i : Instr} {s : State} {f : Fault} (h : exec i s = .fault f) :
    f = .invalidRegisterIndex := by
  cases i with
  | movImm rt imm => exact (withReg_fault h).resolve_right nofun
  | addReg rt rs =>
    obtain hf | ⟨r, h'⟩ := withReg_fault h
    · exact hf
    · exact (withReg_fault h').resolve_right nofun
  | addImm rt imm => exact (withReg_fault h).resolve_right nofun
  | trap => cases h
  | halt => cases h

/-! ### What a step does, by the fetched word -/

/-- A fetched word with opcode 3 is executed as `TRAP`. -/
theorem step_of_opNat_three {s : State} (hpc : s.cpu.pc < s.store.capacity)
    (h : opNat (s.store.slotWord s.cpu.pc) = 3) : step s = .next s.takeTrap :=
  step_of_instr hpc (decodeWord_of_opNat_three h)

/-- A fetched word with opcode 4 is executed as `HALT`. -/
theorem step_of_opNat_four {s : State} (hpc : s.cpu.pc < s.store.capacity)
    (h : opNat (s.store.slotWord s.cpu.pc) = 4) : step s = .next s.stop :=
  step_of_instr hpc (decodeWord_of_opNat_four h)

/-- A step from below the capacity does not fail in the fetch: it can fail with the other two faults only
(R112, R190). -/
theorem step_ne_outOfBoundsFetch {s : State} (hpc : s.cpu.pc < s.store.capacity) :
    step s ≠ .fault .outOfBoundsFetch := by
  cases hd : decodeWord (s.store.slotWord s.cpu.pc) with
  | instr i =>
    rw [step_of_instr hpc hd]
    exact fun h => nomatch exec_fault h
  | illegal =>
    rw [step_of_illegal hpc hd]
    nofun

/-- The events of a step: one for a `TRAP`, one for a `HALT`, and none for any other word or without a fetch
(R118). -/
theorem stepResult_events_cases (s : State) :
    ((s.cpu.pc < s.store.capacity ∧ opNat (s.store.slotWord s.cpu.pc) = 3) ∧
      (stepResult s).events = [.trapRaised]) ∨
    ((s.cpu.pc < s.store.capacity ∧ opNat (s.store.slotWord s.cpu.pc) = 4) ∧
      (stepResult s).events = [.haltReached]) ∨
    (¬ (s.cpu.pc < s.store.capacity ∧ opNat (s.store.slotWord s.cpu.pc) = 3) ∧
      ¬ (s.cpu.pc < s.store.capacity ∧ opNat (s.store.slotWord s.cpu.pc) = 4) ∧
      (stepResult s).events = []) := by
  rcases step_next_or_fault s with ⟨t, h⟩ | ⟨f, h⟩
  · rw [stepResult_next h]
    obtain ⟨hpc, ⟨r, v, hop, -, rfl⟩ | ⟨hop, rfl⟩ | ⟨hop, rfl⟩⟩ := step_next_cases h
    · exact .inr (.inr ⟨by omega, by omega, rfl⟩)
    · exact .inl ⟨⟨hpc, hop⟩, rfl⟩
    · exact .inr (.inl ⟨⟨hpc, hop⟩, rfl⟩)
  · rw [stepResult_fault h]
    refine .inr (.inr ⟨fun ⟨hpc, hop⟩ => ?_, fun ⟨hpc, hop⟩ => ?_, rfl⟩)
    · cases (step_of_opNat_three hpc hop).symm.trans h
    · cases (step_of_opNat_four hpc hop).symm.trans h

/-- A step that returns Continue fetched below the capacity, advanced `pc` by one as a number, kept the store
and did not emit HaltReached (R114, R118). -/
theorem step_continued {s t : State} (h : step s = .next t) (hc : t.report.signal = .continued) :
    s.cpu.pc < s.store.capacity ∧ t.cpu.pc.toNat = s.cpu.pc.toNat + 1 ∧ t.store = s.store ∧
      Event.haltReached ∉ t.report.events := by
  obtain ⟨hpc, ⟨r, v, -, -, rfl⟩ | ⟨-, rfl⟩ | ⟨-, rfl⟩⟩ := step_next_cases h
  · exact ⟨hpc, toNat_pc_add_one hpc, rfl, by simp⟩
  · exact ⟨hpc, toNat_pc_add_one hpc, rfl, by simp⟩
  · cases hc

/-- A step that returns Stop executed a `HALT` (R115, R171). -/
theorem step_stopped {s t : State} (h : step s = .next t) (hc : t.report.signal = .stopped) :
    s.cpu.pc < s.store.capacity ∧ opNat (s.store.slotWord s.cpu.pc) = 4 ∧ t = s.stop := by
  obtain ⟨hpc, ⟨r, v, -, -, rfl⟩ | ⟨-, rfl⟩ | ⟨hop, rfl⟩⟩ := step_next_cases h
  · cases hc
  · cases hc
  · exact ⟨hpc, hop, rfl⟩

/-! ### What a step depends on -/

/-- What an instruction does depends on the CPU State alone; the store it carries over is the one of the state
it is executed in (R120). -/
theorem exec_of_cpu_eq (i : Instr) {s t : State} (hc : s.cpu = t.cpu) :
    exec i s = mapNext (fun u => { u with store := s.store }) (exec i t) := by
  obtain ⟨c, st, r⟩ := s
  obtain ⟨c', st', r'⟩ := t
  subst hc
  cases i with
  | movImm rt imm =>
    simp only [exec, execMovImm, mapNext_withReg]
    rfl
  | addReg rt rs =>
    simp only [exec, execAddReg, mapNext_withReg]
    rfl
  | addImm rt imm =>
    simp only [exec, execAddImm, mapNext_withReg]
    rfl
  | trap => rfl
  | halt => rfl

/-- Of the store a step reads the capacity and, below it, the word at `pc` (R120). -/
theorem step_of_fetch_eq {s t : State} (hc : s.cpu = t.cpu) (hcap : s.store.capacity = t.store.capacity)
    (hw : s.cpu.pc < s.store.capacity → s.store.slotWord s.cpu.pc = t.store.slotWord t.cpu.pc) :
    step s = mapNext (fun u => { u with store := s.store }) (step t) := by
  by_cases hpc : s.cpu.pc < s.store.capacity
  · have hpct : t.cpu.pc < t.store.capacity := by rwa [← hc, ← hcap]
    cases hd : decodeWord (s.store.slotWord s.cpu.pc) with
    | instr i => rw [step_of_instr hpc hd, step_of_instr hpct (hw hpc ▸ hd), exec_of_cpu_eq i hc]
    | illegal => rw [step_of_illegal hpc hd, step_of_illegal hpct (hw hpc ▸ hd), mapNext_fault]
  · have hpct : ¬ t.cpu.pc < t.store.capacity := by rwa [← hc, ← hcap]
    rw [step_of_not_lt hpc, step_of_not_lt hpct, mapNext_fault]

/-! ### The driver's loop -/

/-- Induction along a run, by what each step returns: no step left to make, Continue, Stop, or a fault
(R124). -/
theorem drive_induction {P : Nat → State → Prop} (zero : ∀ s, P 0 s)
    (continued : ∀ n s t, step s = .next t → t.report.signal = .continued → P n t → P (n + 1) s)
    (stopped : ∀ n s t, step s = .next t → t.report.signal = .stopped → P (n + 1) s)
    (fault : ∀ n s f, step s = .fault f → P (n + 1) s) (n : Nat) (s : State) : P n s := by
  induction n generalizing s with
  | zero => exact zero s
  | succ n ih =>
    rcases step_next_or_fault s with ⟨t, h⟩ | ⟨f, h⟩
    · cases hsig : t.report.signal with
      | continued => exact continued n s t h hsig (ih t)
      | stopped => exact stopped n s t h hsig
    · exact fault n s f h

/-- The run is over: it ended normally or went wrong (R125). -/
def RunResult.Ended (r : RunResult) : Prop := r.ending = .stopped ∨ ∃ f, r.ending = .faulted f

@[simp] theorem RunResult.after_ending (r : RunResult) (es : List Event) :
    (r.after es).ending = r.ending := rfl
@[simp] theorem RunResult.after_events (r : RunResult) (es : List Event) :
    (r.after es).events = es ++ r.events := rfl
@[simp] theorem RunResult.after_steps (r : RunResult) (es : List Event) :
    (r.after es).steps = r.steps + 1 := rfl

theorem RunResult.ended_after {r : RunResult} {es : List Event} : (r.after es).Ended ↔ r.Ended := Iff.rfl

theorem drive_zero_not_ended (s : State) : ¬ (drive 0 s).Ended := by
  simp [drive, RunResult.Ended]

/-- The driver makes no more steps than it is given. -/
theorem drive_steps_le (n : Nat) (s : State) : (drive n s).steps ≤ n := by
  induction n, s using drive_induction with
  | zero s => exact Nat.le_refl 0
  | continued n s t h hc ih =>
    rw [drive_continued h hc, RunResult.after_steps]
    omega
  | stopped n s t h hc => simp [drive_stopped h hc]
  | fault n s f h => simp [drive_fault h]

/-- Every step that returns Continue brings `pc` nearer to the capacity, so more steps than the distance end the
run (R123). -/
theorem drive_ended_of_lt {n : Nat} {s : State} (hn : s.store.capacity.toNat - s.cpu.pc.toNat < n) :
    (drive n s).Ended := by
  induction n, s using drive_induction with
  | zero s => omega
  | continued n s t h hc ih =>
    obtain ⟨hpc, hadv, hst, -⟩ := step_continued h hc
    have hlt : s.cpu.pc.toNat < s.store.capacity.toNat := hpc
    rw [drive_continued h hc, RunResult.ended_after]
    refine ih ?_
    rw [hst, hadv]
    omega
  | stopped n s t h hc =>
    rw [drive_stopped h hc]
    exact .inl rfl
  | fault n s f h =>
    rw [drive_fault h]
    exact .inr ⟨f, rfl⟩

/-- A run that is over stays as it is, however many steps more the driver is given (R124). -/
theorem drive_eq_of_ended {n m : Nat} {s : State} (he : (drive n s).Ended) (hnm : n ≤ m) :
    drive m s = drive n s := by
  induction n, s using drive_induction generalizing m with
  | zero s => exact absurd he (drive_zero_not_ended s)
  | continued n s t h hc ih =>
    obtain ⟨m, rfl⟩ : ∃ k, m = k + 1 := ⟨m - 1, by omega⟩
    rw [drive_continued h hc, RunResult.ended_after] at he
    rw [drive_continued h hc, drive_continued h hc, ih he (by omega)]
  | stopped n s t h hc =>
    obtain ⟨m, rfl⟩ : ∃ k, m = k + 1 := ⟨m - 1, by omega⟩
    rw [drive_stopped h hc, drive_stopped h hc]
  | fault n s f h =>
    obtain ⟨m, rfl⟩ : ∃ k, m = k + 1 := ⟨m - 1, by omega⟩
    rw [drive_fault h, drive_fault h]

/-- Two runs from one state that are both over are the same run. -/
theorem drive_eq_of_ended_of_ended {n m : Nat} {s : State} (hn : (drive n s).Ended)
    (hm : (drive m s).Ended) : drive n s = drive m s :=
  calc drive n s = drive (max n m) s := (drive_eq_of_ended hn (le_max_left n m)).symm
    _ = drive m s := drive_eq_of_ended hm (le_max_right n m)

/-- A run that ended in Stop stands at the `HALT` it executed (R125, R171). -/
theorem drive_final_of_stopped {n : Nat} {s : State} (he : (drive n s).ending = .stopped) :
    (drive n s).final.cpu.pc < (drive n s).final.store.capacity ∧
      opNat ((drive n s).final.store.slotWord (drive n s).final.cpu.pc) = 4 := by
  induction n, s using drive_induction with
  | zero s => cases he
  | continued n s t h hc ih =>
    rw [drive_continued h hc] at he ⊢
    exact ih he
  | stopped n s t h hc =>
    rw [drive_stopped h hc]
    obtain ⟨hpc, hop, rfl⟩ := step_stopped h hc
    exact ⟨hpc, hop⟩
  | fault n s f h => simp [drive_fault h] at he

/-- A run that went wrong stands where the failing step began (R116, R122). -/
theorem drive_final_of_faulted {n : Nat} {s : State} {f : Fault} (he : (drive n s).ending = .faulted f) :
    step (drive n s).final = .fault f := by
  induction n, s using drive_induction with
  | zero s => cases he
  | continued n s t h hc ih =>
    rw [drive_continued h hc] at he ⊢
    exact ih he
  | stopped n s t h hc => simp [drive_stopped h hc] at he
  | fault n s g h =>
    rw [drive_fault h] at he ⊢
    cases he
    exact h

/-- HaltReached is the last event of a run that ended in Stop and occurs once in it; no other run emits it
(R118). -/
theorem drive_events_cases (n : Nat) (s : State) :
    ((drive n s).ending = .stopped ∧
      ∃ es, (drive n s).events = es ++ [.haltReached] ∧ Event.haltReached ∉ es) ∨
    ((drive n s).ending ≠ .stopped ∧ Event.haltReached ∉ (drive n s).events) := by
  induction n, s using drive_induction with
  | zero s => exact .inr ⟨nofun, List.not_mem_nil⟩
  | continued n s t h hc ih =>
    obtain ⟨-, -, -, hno⟩ := step_continued h hc
    rw [drive_continued h hc, RunResult.after_ending, RunResult.after_events]
    obtain ⟨he, es, hes, hnes⟩ | ⟨he, hne⟩ := ih
    · exact .inl ⟨he, t.report.events ++ es, by rw [hes, List.append_assoc], by simp [hno, hnes]⟩
    · exact .inr ⟨he, by simp [hno, hne]⟩
  | stopped n s t h hc =>
    rw [drive_stopped h hc]
    obtain ⟨-, -, rfl⟩ := step_stopped h hc
    exact .inl ⟨rfl, [], rfl, List.not_mem_nil⟩
  | fault n s f h =>
    rw [drive_fault h]
    exact .inr ⟨nofun, List.not_mem_nil⟩

/-! ### The statements -/

/-- Settles O8: each opcode's decoding, and the meaning of what it decodes to on registers and on bad
indices. -/
theorem stepFollowsTheAlgorithm : Obligations.StepFollowsTheAlgorithm := by
  intro s
  refine ⟨fun h => step_of_not_lt (BitVec.not_lt.mpr h), ?_⟩
  rintro hpc w rfl
  refine ⟨fun hop => ?_, fun hop => ?_, fun hop => ?_, fun hop => ?_, fun hop => ?_, fun hop => ?_⟩
  · rw [step_of_instr hpc (decodeWord_of_opNat_zero hop)]
    refine ⟨fun r hr => ?_, fun h => exec_movImm_invalid (not_validReg_of_le h) _ s⟩
    exact ⟨_, hr ▸ exec_movImm_reg r _ s, completesWriting_setReg s r _⟩
  · rw [step_of_instr hpc (decodeWord_of_opNat_one hop)]
    refine ⟨fun r u hr hu => ?_, fun h => exec_addReg_invalid (h.imp not_validReg_of_le
      not_validReg_operandIndex) s⟩
    rw [operandIndex_of_opndNat_eq hu, ← hr]
    exact ⟨_, exec_addReg_reg r u s, completesWriting_setReg s r _⟩
  · rw [step_of_instr hpc (decodeWord_of_opNat_two hop)]
    refine ⟨fun r hr => ?_, fun h => exec_addImm_invalid (not_validReg_of_le h) _ s⟩
    exact ⟨_, hr ▸ exec_addImm_reg r _ s, completesWriting_setReg s r _⟩
  · exact ⟨s.takeTrap, step_of_opNat_three hpc hop, fun _ => rfl, rfl, rfl, rfl,
      StoreKept.of_store_eq rfl, rfl⟩
  · exact ⟨s.stop, step_of_opNat_four hpc hop, rfl, StoreKept.of_store_eq rfl, rfl⟩
  · exact step_of_illegal hpc (decodeWord_eq_illegal_iff.mpr hop)

/-- Settles O10: the bounds check looks at `pc` and the capacity alone, and only it raises
OutOfBoundsFetch. -/
theorem fetchPastTheCapacityFails : Obligations.FetchPastTheCapacityFails := by
  refine fun s m => ⟨fun h => ?_, fun hpc =>
    ⟨InstructionStore.iFetch_eq_some.mpr ⟨hpc, rfl⟩, step_ne_outOfBoundsFetch hpc⟩⟩
  exact stepResult_fault (s := { s with store := { s.store with memory := m } })
    (step_of_not_lt (BitVec.not_lt.mpr h))

/-- Settles O13, by the three cases of a step's events. -/
theorem eventsComeFromTrapAndHaltOnly : Obligations.EventsComeFromTrapAndHaltOnly := by
  intro s
  obtain ⟨⟨hpc, hop⟩, he⟩ | ⟨⟨hpc, hop⟩, he⟩ | ⟨hnt, hnh, he⟩ := stepResult_events_cases s
  · simp [he, hpc, hop]
  · simp [he, hpc, hop]
  · simp [he, hnt, hnh]

/-- Settles O14: the state after a Stop differs from the one before in its report only, which no step
reads. -/
theorem stoppedStepRepeats : Obligations.StoppedStepRepeats := by
  intro s t h hc
  obtain ⟨-, hop, rfl⟩ := step_stopped h hc
  have hagain : step s.stop = step s := step_eq_of_cpu_store rfl rfl
  exact ⟨rfl, rfl, hop, hagain.trans h, rfl⟩

/-- Settles O19: the two steps give the same answer but for the store that is carried over, and the result
does not show the store. -/
theorem stepResultIsDetermined : Obligations.StepResultIsDetermined := by
  intro s t hc hcap hw
  have hst := step_of_fetch_eq hc hcap hw
  rcases step_next_or_fault t with ⟨u, h⟩ | ⟨f, h⟩ <;> rw [h] at hst
  · rw [stepResult_next h, stepResult_next hst]
  · rw [stepResult_fault h, stepResult_fault hst, hc]

/-- Settles O31: the distance of `pc` from the capacity bounds the run, and a run that is over stays so. -/
theorem everyRunEnds : Obligations.EveryRunEnds := by
  refine ⟨fun s => ?_, fun s hr hcap => ⟨drive_ended_of_lt ?_, drive_steps_le 1025 s⟩⟩
  · have hend := drive_ended_of_lt (Nat.lt_succ_self (s.store.capacity.toNat - s.cpu.pc.toNat))
    exact ⟨hend, drive_steps_le _ s, fun n hn => drive_eq_of_ended hend hn⟩
  · have h1024 : s.store.capacity.toNat = 1024 := by rw [hcap]; rfl
    omega

/-- Settles O32: where a run that is over stands, and its events; the store at its end is the one it began
with. -/
theorem endOfARunIsWhereItStands : Obligations.EndOfARunIsWhereItStands := by
  intro n s
  refine ⟨fun he => ?_, fun f he => ⟨drive_final_of_faulted he, ?_⟩⟩
  · obtain ⟨hpc, hop⟩ := drive_final_of_stopped he
    rw [drive_store] at hpc hop
    obtain ⟨-, hev⟩ | ⟨hne, -⟩ := drive_events_cases n s
    · exact ⟨hpc, hop, hev⟩
    · exact absurd he hne
  · obtain ⟨hs, -⟩ | ⟨-, hev⟩ := drive_events_cases n s
    · cases hs.symm.trans he
    · exact hev

/-- Settles O35: enough steps end the run, and two runs from one state that are over are the same. -/
theorem runsEndNormallyOrGoWrong : Obligations.RunsEndNormallyOrGoWrong := by
  intro s
  refine ⟨?_, fun ⟨⟨n, hn⟩, m, f, hm⟩ => ?_⟩
  · obtain he | ⟨f, he⟩ := drive_ended_of_lt (Nat.lt_succ_self (s.store.capacity.toNat - s.cpu.pc.toNat))
    · exact .inl ⟨_, he⟩
    · exact .inr ⟨_, f, he⟩
  · rw [drive_eq_of_ended_of_ended (.inl hn) (.inr ⟨f, hm⟩), hm] at hn
    cases hn

/-- Settles O9: the bytes of the slot decode as its word does, and what is decoded has a word. -/
theorem stepRunsTheDecodedInstruction : Obligations.StepRunsTheDecodedInstruction := by
  intro s i hpc h
  have hd := decode_slotBytes_eq_ok.mp h
  obtain ⟨hwf, -⟩ := encode_of_decodeWord hd
  exact ⟨hwf, step_of_instr hpc hd⟩

end Sys2Proof.Machine
end

section
/-! SUPPORT. The proof of the statement about the move instruction (41_move.md): first the decoder on a word
with opcode 0 and the result of a step whose instruction fails; then the statement. -/

namespace Sys2Proof.Machine

/-- A word with opcode 0 is a `MOV_IMM` of its target field and its operand field, whatever they hold
(R84, R85). -/
theorem decodeWord_joinFields_zero (rt : BitVec 16) (imm : Word) :
    decodeWord (joinFields 0 rt imm) = .instr (.movImm rt.toNat imm) := by
  simp [decodeWord, targetIndex, immediate]

/-- A step whose instruction fails has the fault as its outcome, the CPU State as it was and no event
(R116). -/
theorem stepResult_of_exec_fault {s : State} {w : InstrWord} {i : Instr} {f : Fault}
    (hw : s.store.iFetch s.cpu.pc = some w) (hd : decodeWord w = .instr i) (hf : exec i s = .fault f) :
    stepResult s = ⟨s.cpu, .fault f, []⟩ := by
  obtain ⟨hpc, rfl⟩ := InstructionStore.iFetch_eq_some.mp hw
  exact stepResult_fault ((step_of_instr hpc hd).trans hf)

/-- Settles O1: the meaning on a register is one write and the advance, the meaning on a bad index is the
fault, and a step that fetches such a word with a bad target comes to the second. -/
theorem movImmLoadsTheImmediate : Obligations.MovImmLoadsTheImmediate := by
  refine ⟨fun s r imm => ?completes, fun s rt imm h => ?badTarget, decodeWord_joinFields_zero,
    fun s rt imm hw hrt => ?badStep⟩
  case completes => exact ⟨_, exec_movImm_reg r imm s, completesWriting_setReg s r imm⟩
  case badTarget => exact exec_movImm_invalid h imm s
  case badStep =>
    have hf : exec (.movImm rt.toNat imm) s = .fault .invalidRegisterIndex :=
      exec_movImm_invalid (not_validReg_of_le hrt) imm s
    exact stepResult_of_exec_fault hw (decodeWord_joinFields_zero rt imm) hf

end Sys2Proof.Machine
end

section
/-! SUPPORT. The proofs of the statements about the add instructions (42_arithmetic.md): first the add
datapath as a group and as signed arithmetic, the decoder on words with opcodes 1 and 2, and what one addend
does; then one theorem per statement. -/

namespace Sys2Proof.Machine

/-! ### The add datapath -/

theorem add32_comm (a b : Word) : add32 a b = add32 b a := by
  simp only [add32_eq_add, BitVec.add_comm]

theorem add32_assoc (a b c : Word) : add32 (add32 a b) c = add32 a (add32 b c) := by
  simp only [add32_eq_add, BitVec.add_assoc]

theorem add32_zero (a : Word) : add32 a 0 = a := by
  rw [add32_eq_add]
  exact BitVec.add_zero a

/-- The sum of two patterns is the pattern of their signed sum (R152). -/
theorem add32_eq_ofInt (a b : Word) : add32 a b = BitVec.ofInt 32 (a.toInt + b.toInt) := by
  rw [add32_eq_add, BitVec.ofInt_add, BitVec.ofInt_toInt, BitVec.ofInt_toInt]

/-- The pattern of the negated signed value is the inverse (R154). -/
theorem add32_ofInt_neg (a : Word) : add32 a (BitVec.ofInt 32 (-a.toInt)) = 0 := by
  rw [add32_eq_add, BitVec.ofInt_neg, BitVec.ofInt_toInt]
  exact BitVec.add_right_neg a

/-- The balanced residue of a sum of two signed 32-bit values: at most one `2^32` is taken off or put on. -/
theorem bmod_of_sum_of_signed {z : Int} (hlo : -4294967296 ≤ z) (hhi : z ≤ 4294967294) :
    z.bmod (2 ^ 32) =
      if z > 2147483647 then z - 4294967296
      else if z < -2147483648 then z + 4294967296
      else z := by
  rw [Int.bmod_def]
  split_ifs <;> omega

/-! ### The decoder on words of the two opcodes -/

/-- A word with opcode 1 is an `ADD_REG` of its target field and its operand field read as signed (R84,
R85). -/
theorem decodeWord_joinFields_one (rt : BitVec 16) (opnd : BitVec 32) :
    decodeWord (joinFields 1 rt opnd) = .instr (.addReg rt.toNat opnd.toInt) := by
  simp [decodeWord, targetIndex, operandIndex]

/-- A word with opcode 2 is an `ADD_IMM` of its target field and its operand field (R84, R85). -/
theorem decodeWord_joinFields_two (rt : BitVec 16) (imm : Word) :
    decodeWord (joinFields 2 rt imm) = .instr (.addImm rt.toNat imm) := by
  simp [decodeWord, targetIndex, immediate]

/-! ### Sequences of adds -/

theorem execAll_cons_of_next {i : Instr} {is : List Instr} {s t : State} (h : exec i s = .next t) :
    execAll (i :: is) s = execAll is t := by
  simp [execAll, h]

/-- Either kind of addend is one write of the sum and the advance (R150, R151). -/
theorem exec_addend (r : RegIndex) (a : Addend) (s : State) :
    exec (a.instr r) s = .next ((s.setReg r (add32 (s.getReg r) (a.value s))).retire []) := by
  cases a with
  | imm v => exact exec_addImm_reg r v s
  | reg u => exact exec_addReg_reg r u s

/-- A write of a register leaves the value of every addend that is not that register. -/
theorem Addend.value_setReg_retire {r : RegIndex} {a : Addend} (ha : ∀ u, a = .reg u → u ≠ r) (s : State)
    (v : Word) (es : List Event) : a.value ((s.setReg r v).retire es) = a.value s := by
  cases a with
  | imm w => rfl
  | reg u => exact State.getReg_setReg_other s r u v (ha u rfl)

/-- A sequence of adds to `r` completes with the sum of its addends in `r`. Each add leaves the values of the
addends after it, which are not `r`, so their sum can be taken in the first state. -/
theorem execAll_addends (r : RegIndex) (as : List Addend) (hr : ∀ u, Addend.reg u ∈ as → u ≠ r) (s : State) :
    ∃ t, execAll (as.map (Addend.instr r)) s = .next t ∧
      t.getReg r = add32 (s.getReg r) ((as.map (Addend.value s)).foldr add32 0) ∧
      (∀ q, q ≠ r → t.getReg q = s.getReg q) ∧
      t.cpu.pc = s.cpu.pc + BitVec.ofNat 32 as.length := by
  induction as generalizing s with
  | nil => exact ⟨s, rfl, (add32_zero _).symm, fun _ _ => rfl, (BitVec.add_zero _).symm⟩
  | cons a as ih =>
    have hrs : ∀ u, Addend.reg u ∈ as → u ≠ r := fun u hu => hr u (List.mem_cons_of_mem a hu)
    have hkept : ∀ v, ∀ b ∈ as, b.value ((s.setReg r v).retire []) = b.value s :=
      fun v b hb => Addend.value_setReg_retire (fun u hu => hrs u (hu ▸ hb)) s v []
    obtain ⟨t, hrun, hsum, hother, hpc⟩ := ih hrs ((s.setReg r (add32 (s.getReg r) (a.value s))).retire [])
    refine ⟨t, (execAll_cons_of_next (exec_addend r a s)).trans hrun, ?sum, fun q hq => ?other, ?pc⟩
    case sum =>
      rw [hsum, List.map_congr_left (hkept _), State.retire_getReg, State.getReg_setReg_same, add32_assoc,
        List.map_cons, List.foldr_cons]
    case other => exact (hother q hq).trans (State.getReg_setReg_other s r q _ hq)
    case pc =>
      rw [hpc, State.retire_pc, State.setReg_pc, BitVec.add_assoc, List.length_cons, Nat.add_comm,
        BitVec.ofNat_add]
      rfl

/-! ### The statements -/

/-- Settles O2: the meaning on two registers is one write of their sum and the advance, the meaning on a bad
index in either place is the fault, and a step that fetches such a word comes to the second. -/
theorem addRegAddsTheRegisters : Obligations.AddRegAddsTheRegisters := by
  refine ⟨fun s r u => ?completes, fun s rt rs h => ?badIndex, decodeWord_joinFields_one,
    fun s rt opnd hw h => ?badStep⟩
  case completes => exact ⟨_, exec_addReg_reg r u s, completesWriting_setReg s r _⟩
  case badIndex => exact exec_addReg_invalid h s
  case badStep =>
    have hbad : ¬ ValidReg rt.toNat ∨ ¬ ValidReg opnd.toInt := by omega
    exact stepResult_of_exec_fault hw (decodeWord_joinFields_one rt opnd) (exec_addReg_invalid hbad s)

/-- Settles O3: the meaning on a register is one write of the sum and the advance, the meaning on a bad index
is the fault, and a step that fetches such a word with a bad target comes to the second. -/
theorem addImmAddsTheImmediate : Obligations.AddImmAddsTheImmediate := by
  refine ⟨fun s r imm => ?completes, fun s rt imm h => ?badTarget, decodeWord_joinFields_two,
    fun s rt imm hw hrt => ?badStep⟩
  case completes => exact ⟨_, exec_addImm_reg r imm s, completesWriting_setReg s r _⟩
  case badTarget => exact exec_addImm_invalid h imm s
  case badStep =>
    have hf : exec (.addImm rt.toNat imm) s = .fault .invalidRegisterIndex :=
      exec_addImm_invalid (not_validReg_of_le hrt) imm s
    exact stepResult_of_exec_fault hw (decodeWord_joinFields_two rt imm) hf

/-- Settles O6: the unsigned reading is the datapath's own, the pattern is that of the signed sum, and the
signed reading is the balanced residue of a sum that two signed 32-bit values can have. -/
theorem sumWrapsModuloTwoToThe32 : Obligations.SumWrapsModuloTwoToThe32 := by
  intro a b
  refine ⟨BitVec.toNat_ofNat _ _, add32_eq_ofInt a b, ?signed⟩
  case signed =>
    have ha : -2147483648 ≤ a.toInt ∧ a.toInt < 2147483648 := ⟨a.le_toInt, a.toInt_lt⟩
    have hb : -2147483648 ≤ b.toInt ∧ b.toInt < 2147483648 := ⟨b.le_toInt, b.toInt_lt⟩
    rw [add32_eq_ofInt, BitVec.toInt_ofInt]
    exact bmod_of_sum_of_signed (by omega) (by omega)

/-- Settles O7: the group laws of the datapath, and the induction over the sequence. -/
theorem addsAccumulateTheirAddends : Obligations.AddsAccumulateTheirAddends :=
  ⟨fun a b c => ⟨add32_comm a b, add32_assoc a b c, add32_zero a, add32_ofInt_neg a, by decide⟩,
    fun s r as hr => execAll_addends r as hr s⟩

end Sys2Proof.Machine
end

section
/-! SUPPORT. The proofs of the statements about the system instructions (43_system.md): first the decoder on
words with opcodes 3 and 4, and what a step and a run do to the mode; then one theorem per statement. -/

namespace Sys2Proof.Machine

/-! ### The two instructions -/

/-- Every word with opcode 3 is a `TRAP`: its other fields are ignored (R84, R88). -/
theorem decodeWord_joinFields_three (rt : BitVec 16) (opnd : BitVec 32) :
    decodeWord (joinFields 3 rt opnd) = .instr .trap := by
  simp [decodeWord]

/-- Every word with opcode 4 is a `HALT`: its other fields are ignored (R84, R88). -/
theorem decodeWord_joinFields_four (rt : BitVec 16) (opnd : BitVec 32) :
    decodeWord (joinFields 4 rt opnd) = .instr .halt := by
  simp [decodeWord]

theorem exec_trap (s : State) : exec .trap s = .next s.takeTrap := rfl

theorem exec_halt (s : State) : exec .halt s = .next s.stop := rfl

/-! ### The mode -/

/-- A completed step either executed a `TRAP`, is in KERNEL and emitted TrapRaised, or executed something
else, kept the mode and did not emit it (R118, R172). -/
theorem step_mode_cases {s t : State} (h : step s = .next t) :
    (opNat (s.store.slotWord s.cpu.pc) = 3 ∧ t.cpu.mode = .kernel ∧
      Event.trapRaised ∈ t.report.events) ∨
    (opNat (s.store.slotWord s.cpu.pc) ≠ 3 ∧ t.cpu.mode = s.cpu.mode ∧
      Event.trapRaised ∉ t.report.events) := by
  obtain ⟨-, ⟨r, v, hop, -, rfl⟩ | ⟨hop, rfl⟩ | ⟨hop, rfl⟩⟩ := step_next_cases h
  · exact .inr ⟨by omega, rfl, by simp⟩
  · exact .inl ⟨hop, rfl, by simp⟩
  · exact .inr ⟨by omega, rfl, by simp⟩

/-- After a completed step the mode is KERNEL if it was before or the step emitted TrapRaised, and only
then. -/
theorem step_mode_eq_kernel_iff_event {s t : State} (h : step s = .next t) :
    t.cpu.mode = .kernel ↔ s.cpu.mode = .kernel ∨ Event.trapRaised ∈ t.report.events := by
  obtain ⟨-, hm, he⟩ | ⟨-, hm, he⟩ := step_mode_cases h
  · simp [hm, he]
  · simp [hm, he]

/-- After a run the mode is KERNEL if it was before or the run emitted TrapRaised, and only then. -/
theorem drive_mode_eq_kernel_iff (n : Nat) (s : State) :
    (drive n s).final.cpu.mode = .kernel ↔
      s.cpu.mode = .kernel ∨ Event.trapRaised ∈ (drive n s).events := by
  induction n, s using drive_induction with
  | zero s => simp [drive]
  | continued n s t h hc ih =>
    rw [drive_continued h hc, RunResult.after_final, RunResult.after_events, List.mem_append, ih,
      step_mode_eq_kernel_iff_event h, or_assoc]
  | stopped n s t h hc =>
    rw [drive_stopped h hc]
    exact step_mode_eq_kernel_iff_event h
  | fault n s f h => simp [drive_fault h]

/-! ### The statements -/

/-- Settles O16: a `TRAP` sets the mode to KERNEL, and every other completed step keeps it. -/
theorem kernelIsASink : Obligations.KernelIsASink := by
  intro s t h
  obtain ⟨hop, hm, -⟩ | ⟨hop, hm, -⟩ := step_mode_cases h
  · simp [hop, hm]
  · simp [hop, hm]

/-- Settles O33: both clauses are the one equivalence about a run, read from either mode. -/
theorem kernelExactlyAfterATrap : Obligations.KernelExactlyAfterATrap := by
  intro n s
  refine ⟨fun hu => ?fromUser, fun hk => ?fromKernel⟩
  case fromUser => simp [drive_mode_eq_kernel_iff, hu]
  case fromKernel => exact (drive_mode_eq_kernel_iff n s).mpr (.inl hk)

/-- Settles O4: the trap's update field by field, and the decoding of opcode 3. -/
theorem trapRaisesTheModeAndGoesOn : Obligations.TrapRaisesTheModeAndGoesOn := by
  refine ⟨fun s => ⟨s.takeTrap, exec_trap s, s.takeTrap_getReg, s.takeTrap_mode, s.takeTrap_pc,
    s.takeTrap_interruptsEnabled, ?store, s.takeTrap_report⟩, decodeWord_joinFields_three⟩
  case store => exact StoreKept.of_store_eq s.takeTrap_store

/-- Settles O5: stopping replaces the report alone, and the decoding of opcode 4. -/
theorem haltStopsInPlace : Obligations.HaltStopsInPlace := by
  refine ⟨fun s => ⟨s.stop, exec_halt s, s.stop_cpu, ?store, s.stop_report⟩,
    decodeWord_joinFields_four⟩
  case store => exact StoreKept.of_store_eq s.stop_store

end Sys2Proof.Machine
end

section
/-! SUPPORT. The proofs of the statements about the exceptions and the outside (60_exceptions.md): first which
words a step executes, what a replaced mode changes, the codes of the ports and the engines after reset; then
one theorem per statement. -/

namespace Sys2Proof.Machine

/-! ### Which fetched words a step executes -/

/-- A step that fetches a word whose register indices are in range does not fail (R111). -/
theorem safeStep_of_wordExecutes {s : State} (hpc : s.cpu.pc < s.store.capacity)
    (h : WordExecutes (s.store.slotWord s.cpu.pc)) : SafeStep s := by
  obtain ⟨movImm, addReg, addImm, trap, halt, -⟩ := (stepFollowsTheAlgorithm s).2 hpc _ rfl
  obtain ⟨hop, hrt⟩ | ⟨hop, hrt, hrs⟩ | ⟨hop, hrt⟩ | hop | hop := h
  · obtain ⟨t, ht, -⟩ := (movImm hop).1 ⟨_, hrt⟩ rfl
    exact ⟨t, ht⟩
  · obtain ⟨t, ht, -⟩ := (addReg hop).1 ⟨_, hrt⟩ ⟨_, hrs⟩ rfl rfl
    exact ⟨t, ht⟩
  · obtain ⟨t, ht, -⟩ := (addImm hop).1 ⟨_, hrt⟩ rfl
    exact ⟨t, ht⟩
  · obtain ⟨t, ht, -⟩ := trap hop
    exact ⟨t, ht⟩
  · obtain ⟨t, ht, -⟩ := halt hop
    exact ⟨t, ht⟩

/-- A legal opcode whose instruction does not execute is one of the three register instructions with an index
that is out of range (R194). -/
theorem bad_index_of_not_wordExecutes {w : InstrWord} (hop : opNat w < 5) (h : ¬ WordExecutes w) :
    (opNat w = 0 ∧ 8 ≤ rtNat w) ∨ (opNat w = 1 ∧ (8 ≤ rtNat w ∨ 8 ≤ opndNat w)) ∨
      (opNat w = 2 ∧ 8 ≤ rtNat w) := by
  unfold WordExecutes at h
  omega

/-- A step that fetches a legal opcode with an index out of range fails with InvalidRegisterIndex (R194). -/
theorem step_of_not_wordExecutes {s : State} (hpc : s.cpu.pc < s.store.capacity)
    (hop : opNat (s.store.slotWord s.cpu.pc) < 5) (h : ¬ WordExecutes (s.store.slotWord s.cpu.pc)) :
    step s = .fault .invalidRegisterIndex := by
  obtain ⟨movImm, addReg, addImm, -⟩ := (stepFollowsTheAlgorithm s).2 hpc _ rfl
  obtain ⟨h0, hbad⟩ | ⟨h1, hbad⟩ | ⟨h2, hbad⟩ := bad_index_of_not_wordExecutes hop h
  · exact (movImm h0).2 hbad
  · exact (addReg h1).2 hbad
  · exact (addImm h2).2 hbad

/-- A word that executes has a legal opcode. -/
theorem WordExecutes.opNat_lt {w : InstrWord} (h : WordExecutes w) : opNat w < 5 := by
  unfold WordExecutes at h
  omega

/-- The four answers of a step, each with its condition, in the order in which the step checks them (R190,
R197). -/
theorem step_answer_cases (s : State) :
    (¬ s.cpu.pc < s.store.capacity ∧ step s = .fault .outOfBoundsFetch) ∨
    (s.cpu.pc < s.store.capacity ∧ 5 ≤ opNat (s.store.slotWord s.cpu.pc) ∧
      step s = .fault .unknownOpcode) ∨
    (s.cpu.pc < s.store.capacity ∧ opNat (s.store.slotWord s.cpu.pc) < 5 ∧
      ¬ WordExecutes (s.store.slotWord s.cpu.pc) ∧ step s = .fault .invalidRegisterIndex) ∨
    (s.cpu.pc < s.store.capacity ∧ WordExecutes (s.store.slotWord s.cpu.pc) ∧
      ∃ t, step s = .next t) := by
  by_cases hpc : s.cpu.pc < s.store.capacity
  · by_cases hw : WordExecutes (s.store.slotWord s.cpu.pc)
    · exact .inr (.inr (.inr ⟨hpc, hw, safeStep_of_wordExecutes hpc hw⟩))
    · by_cases hop : opNat (s.store.slotWord s.cpu.pc) < 5
      · exact .inr (.inr (.inl ⟨hpc, hop, hw, step_of_not_wordExecutes hpc hop hw⟩))
      · have hop := Nat.le_of_not_lt hop
        exact .inr (.inl ⟨hpc, hop, step_of_illegal hpc (decodeWord_eq_illegal_iff.mpr hop)⟩)
  · exact .inl ⟨hpc, step_of_not_lt hpc⟩

/-! ### Replacing the mode -/

/-- Every instruction answers the same whatever the mode is, but for the mode itself (R206). -/
theorem exec_setMode (i : Instr) (s : State) (m k : Mode) :
    mapNext (·.setMode k) (exec i (s.setMode m)) = mapNext (·.setMode k) (exec i s) := by
  cases i with
  | movImm rt imm =>
    simp only [exec, execMovImm, mapNext_withReg]
    rfl
  | addReg rt rs =>
    simp only [exec, execAddReg, mapNext_withReg]
    rfl
  | addImm rt imm =>
    simp only [exec, execAddImm, mapNext_withReg]
    rfl
  | trap => rfl
  | halt => rfl

/-- The step answers the same whatever the mode is, but for the mode itself (R206). -/
theorem step_setMode (s : State) (m k : Mode) :
    mapNext (·.setMode k) (step (s.setMode m)) = mapNext (·.setMode k) (step s) := by
  by_cases hpc : s.cpu.pc < s.store.capacity
  · cases hd : decodeWord (s.store.slotWord s.cpu.pc) with
    | instr i => rw [step_of_instr hpc hd, step_of_instr (s := s.setMode m) hpc hd, exec_setMode]
    | illegal => rw [step_of_illegal hpc hd, step_of_illegal (s := s.setMode m) hpc hd]
  · rw [step_of_not_lt hpc, step_of_not_lt (s := s.setMode m) hpc]

/-- A changed answer is a next state only if the answer was one. -/
theorem mapNext_eq_next {g : State → State} {a : Answer} {t : State} :
    mapNext g a = .next t ↔ ∃ u, a = .next u ∧ g u = t := by
  cases a <;> simp [mapNext]

/-- A change of the next state leaves the faults. -/
theorem mapNext_eq_fault {g : State → State} {a : Answer} {f : Fault} :
    mapNext g a = .fault f ↔ a = .fault f := by
  cases a <;> simp [mapNext]

/-! ### The codes of the ports -/

theorem StepOutcome.code_eq_zero {o : StepOutcome} : o.code = 0 ↔ o = .continued := by
  cases o <;> simp [StepOutcome.code]

theorem StepOutcome.code_eq_one {o : StepOutcome} : o.code = 1 ↔ o = .stopped := by
  cases o <;> simp [StepOutcome.code]

theorem StepOutcome.code_eq_two {o : StepOutcome} : o.code = 2 ↔ ∃ f, o = .fault f := by
  cases o <;> simp [StepOutcome.code]

theorem StepOutcome.code_eq_three {o : StepOutcome} : o.code = 3 ↔ ∃ r, o = .refused r := by
  cases o <;> simp [StepOutcome.code]

theorem Fault.code_ne_zero (f : Fault) : f.code ≠ 0 := by
  cases f <;> decide

/-- The three faults have different codes (R191). -/
theorem Fault.code_inj {f g : Fault} : f.code = g.code ↔ f = g := by
  cases f <;> cases g <;> decide

theorem StepOutcome.faultCode_eq_zero {o : StepOutcome} : o.faultCode = 0 ↔ o.code ≠ 2 := by
  cases o with
  | fault f => exact iff_of_false f.code_ne_zero fun h => h rfl
  | continued | stopped | refused r => simp [StepOutcome.faultCode, StepOutcome.code]

/-- The port `fault_code` shows a fault's code exactly when the outcome is that fault (R191). -/
theorem StepOutcome.faultCode_eq_code {o : StepOutcome} {f : Fault} :
    o.faultCode = f.code ↔ o = .fault f := by
  cases o with
  | fault g => simp [StepOutcome.faultCode, Fault.code_inj]
  | continued | stopped | refused r => exact iff_of_false f.code_ne_zero.symm nofun

/-- The outcome of a step is no refusal (R115). -/
theorem stepResult_outcome_ne_refused (s : State) (r : Refusal) : (stepResult s).outcome ≠ .refused r := by
  rcases step_next_or_fault s with ⟨t, h⟩ | ⟨f, h⟩
  · rw [stepResult_next h]
    cases t.report.signal <;> nofun
  · rw [stepResult_fault h]
    nofun

/-- A step emits an event exactly when that event is all it emits (R118). -/
theorem mem_stepResult_events {s : State} {e : Event} :
    e ∈ (stepResult s).events ↔ (stepResult s).events = [e] := by
  obtain ⟨-, he⟩ | ⟨-, he⟩ | ⟨-, -, he⟩ := stepResult_events_cases s <;> simp [he, eq_comm]

/-- An event port is 1 exactly when the step emitted the event (R127). -/
theorem eventPort_eq_one {s : State} {e : Event} :
    BitVec.ofBool (decide (e ∈ (stepResult s).events)) = 1 ↔ (stepResult s).events = [e] := by
  rw [← mem_stepResult_events]
  by_cases h : e ∈ (stepResult s).events <;> simp [h]

/-! ### Engines after reset -/

@[simp] theorem EngineSystem.boot_length (n : Nat) (st : InstructionStore) :
    (EngineSystem.boot n st).engines.length = n := by
  simp [EngineSystem.boot]

/-- Every engine of a newly made system is the engine of a machine after reset (R210). -/
theorem EngineSystem.eq_of_mem_boot {n : Nat} {st : InstructionStore} {e : Engine}
    (h : e ∈ (EngineSystem.boot n st).engines) : e = Engine.ofState State.reset :=
  List.eq_of_mem_replicate h

/-- Each machine of a newly made system is a single machine after reset on that store (R210). -/
theorem EngineSystem.machine_boot (n : Nat) (st : InstructionStore)
    (k : Fin (EngineSystem.boot n st).engines.length) :
    (EngineSystem.boot n st).machine (EngineSystem.boot n st).engines[k] =
      { State.reset with store := st } := by
  have hk : (EngineSystem.boot n st).engines[k] = Engine.ofState State.reset :=
    EngineSystem.eq_of_mem_boot (List.getElem_mem k.isLt)
  rw [hk]
  rfl

/-! ### The statements -/

/-- Settles O11: each of the four answers of a step comes with its condition, and the conditions exclude each
other. -/
theorem faultsAreExactlyTheThree : Obligations.FaultsAreExactlyTheThree := by
  intro s
  rw [← BitVec.not_lt, SafeStep]
  obtain ⟨hpc, h⟩ | ⟨hpc, hop, h⟩ | ⟨hpc, hop, hw, h⟩ | ⟨hpc, hw, t, h⟩ := step_answer_cases s
  · simp [h, hpc]
  · have hw : ¬ WordExecutes (s.store.slotWord s.cpu.pc) := fun hw => by
      have := hw.opNat_lt
      omega
    simp [h, hpc, hop, hw]
  · simp [h, hpc, hop, hw]
  · simp [h, hpc, hw, hw.opNat_lt]

/-- Settles O17: the two steps agree once their modes are made equal, and a mode that was not kept is the one
`TRAP` set. -/
theorem modePlaysNoPart : Obligations.ModePlaysNoPart := by
  refine fun s m => ⟨fun t h => ?next, fun f h => ?fault⟩
  case next =>
    have hmap := step_setMode s m t.cpu.mode
    rw [h, mapNext_next] at hmap
    obtain ⟨u, hu, hut⟩ := mapNext_eq_next.mp hmap
    refine ⟨u, hu, hut, ?_⟩
    obtain ⟨hop, -, -⟩ | ⟨-, hm, -⟩ := step_mode_cases hu
    · exact .inr hop
    · exact .inl hm
  case fault =>
    have hmap := step_setMode s m m
    rw [h, mapNext_fault] at hmap
    exact mapNext_eq_fault.mp hmap

/-- Settles O36: the codes of each outcome and of each fault are its own, a step has no outcome but the three,
and it emits at most one event. -/
theorem portCodesOfEveryStep : Obligations.PortCodesOfEveryStep := by
  refine fun s => ⟨StepOutcome.code_eq_zero, StepOutcome.code_eq_one, StepOutcome.code_eq_two,
    fun h => ?noRefusal, StepOutcome.faultCode_eq_zero,
    StepOutcome.faultCode_eq_code (f := .outOfBoundsFetch),
    StepOutcome.faultCode_eq_code (f := .unknownOpcode),
    StepOutcome.faultCode_eq_code (f := .invalidRegisterIndex), eventPort_eq_one, eventPort_eq_one⟩
  case noRefusal =>
    obtain ⟨r, hr⟩ := StepOutcome.code_eq_three.mp h
    exact stepResult_outcome_ne_refused s r hr

/-- Settles O41: a newly made system repeats the engine after reset, a reset puts back one engine, and the
machine that steps first is the single machine after reset. -/
theorem eachEngineStartsFromItsOwnReset : Obligations.EachEngineStartsFromItsOwnReset := by
  refine ⟨fun n st => ⟨rfl, EngineSystem.boot_length n st, fun e he => ?bootCpu⟩,
    fun y k => ⟨rfl, y.put_length k _, fun j hj => ?others, ?own⟩,
    fun n st k => ⟨fun t h => ?firstNext, fun f h => ?firstFault⟩⟩
  case bootCpu =>
    rw [EngineSystem.eq_of_mem_boot he]
    rfl
  case others => rw [EngineSystem.resetEngine, EngineSystem.getElem?_put, if_neg hj]
  case own => exact ⟨_, by rw [EngineSystem.resetEngine, EngineSystem.getElem?_put, if_pos rfl], rfl⟩
  case firstNext =>
    rw [← EngineSystem.machine_boot n st k] at h
    exact ⟨_, EngineSystem.stepEngine_eq_next.mpr ⟨t, h, rfl⟩,
      by rw [EngineSystem.getElem?_put, if_pos rfl]; rfl⟩
  case firstFault =>
    rw [← EngineSystem.machine_boot n st k] at h
    exact EngineSystem.stepEngine_eq_fault.mpr h

end Sys2Proof.Machine
end
